-- ==== Sys2Proof/Word.lean ====
section
/-! DEFINITION. The data words of the SevenSegmentCounter core: digits, patterns, button levels, and the
three command words `LVL`, `EVT` and `UOP` (spec/30_encoding.md section 1, rules R47 to R55). -/

namespace Sys2Proof

/-- The value of one digit register: a ten-element type, so that the nibble codes 10 to 15 cannot be
written down (R15, R16). -/
abbrev Digit := Fin 10

/-- A 7-bit illumination pattern; bit `k` is 1 iff segment `k` is lit, bit 0 = segment a (R48). -/
abbrev Pattern := BitVec 7

/-- A button level: `true` = electrically high = released, `false` = low = pressed (R13, R51). -/
abbrev Level := Bool

/-- `PRESSED` of R13. -/
abbrev pressed : Level := false

/-- `RELEASED` of R13. -/
abbrev released : Level := true

/-- The three levels presented to one tick: bit 0 increment, bit 1 decrement, bit 2 reset (R51). -/
abbrev LvlWord := BitVec 3

/-- The three events of one tick: bit 0 increment, bit 1 decrement, bit 2 reset (R52). -/
abbrev EvtWord := BitVec 3

/-- The 16-bit operation word `op[15:12] idx[11:8] imm[7:0]` (R55). -/
abbrev UopWord := BitVec 16

end Sys2Proof
end

