-- ==== Sys2Proof/Config.lean ====
section
/-! DEFINITION. What is fixed before reset (the parameters of spec/00_scope.md rule R7), the construction
check of R115, and the free values: the environment's answer to each polling iteration, and the three
parameters the spec leaves OPEN. -/

namespace Sys2Proof

/-- Which sampled edge of a button is a counter event, `EVENT_EDGE` (R102, D3). -/
inductive EventEdge where
  | press
  | release
  deriving DecidableEq, Repr

/-- The new level that makes a change an event (R102). -/
abbrev EventEdge.level : EventEdge → Level
  | .press => pressed
  | .release => released

/-- The order of `CNT.RENDER`'s result and the digit-to-display mapping, `RENDER_ORDER`. The spec
describes this one value only (R81, C10, D11). -/
inductive RenderOrder where
  | leastSignificantFirst
  deriving DecidableEq, Repr

/-- The parameters of R7, each a field. The three that R7 fixes carry the proof of their value, and
`digits_pos` is the lower bound on `N` of R115: a block with `N = 0` cannot be written down. -/
structure Config where
  /-- `N`, the number of digits. -/
  n : Nat
  digits_pos : 1 ≤ n
  /-- `NSEG`, segments per digit. -/
  nseg : Nat
  nseg_fixed : nseg = 7
  /-- `NBTN`, buttons: 0 increment, 1 decrement, 2 reset (R13). -/
  nbtn : Nat
  nbtn_fixed : nbtn = 3
  /-- `RADIX`, the digit base. -/
  radix : Nat
  radix_fixed : radix = 10
  /-- `SEG_TABLE`, immutable, one copy for all digits (R34, R49). -/
  segTable : Vector Pattern radix
  eventEdge : EventEdge
  /-- `FIRST_SAMPLE_EDGE` (R94). -/
  firstSampleEdge : Bool
  /-- `DIRTY_RESET` (R30). -/
  dirtyReset : Bool
  /-- `SEG_RESET` (R30). -/
  segReset : Bool
  renderOrder : RenderOrder
  /-- `TICK_PERIOD`, OPEN: read by no rule (R7). -/
  tickPeriod : Nat
  /-- `SEG_PAD_POLARITY`, OPEN: the pad level of a lit segment, read by no rule (R7, R90). -/
  segPadPolarity : Bool
  /-- `RESET_MECHANISM`, OPEN: the name of the signal that causes reset, read by no rule (R7, R130). -/
  resetMechanism : String
  deriving DecidableEq, Repr

/-- UNVERIFIED, OPEN in R7: no value (log 17). -/
opaque Config.openTickPeriod : Nat

/-- UNVERIFIED, OPEN in R7: no value (log 17). -/
opaque Config.openSegPadPolarity : Bool

/-- UNVERIFIED, OPEN in R7: no value (log 17). -/
opaque Config.openResetMechanism : String

/-- The free input of the polling loop: what the environment answers to the `k`-th polling iteration that
no harness word asks for. `some lvl` presents the three button levels, any three booleans, unconstrained by
earlier ones (R43, R147); `none` is the failed hardware read of R116, after which no tick happens. It has
no body, so no proof can know an answer (log 2). -/
opaque Config.environment : Nat → Option LvlWord

/-- The ten patterns of R49, entry `i` for the digit value `i`. Entries 0 and 9 are the source's; entries 1
to 8 are PRESUMED (the spec's general knowledge G1, log 5). -/
def Config.standardTable : Vector Pattern 10 :=
  #v[0x3f#7, 0x06#7, 0x5b#7, 0x4f#7, 0x66#7, 0x6d#7, 0x7d#7, 0x07#7, 0x7f#7, 0x6f#7]

/-- This hardware: the column "this hardware" of R7. `N` is 2 (D19, log 19). -/
abbrev config : Config where
  n := 2
  digits_pos := by decide
  nseg := 7
  nseg_fixed := rfl
  nbtn := 3
  nbtn_fixed := rfl
  radix := 10
  radix_fixed := rfl
  segTable := Config.standardTable
  eventEdge := .press
  firstSampleEdge := false
  dirtyReset := true
  segReset := false
  renderOrder := .leastSignificantFirst
  tickPeriod := Config.openTickPeriod
  segPadPolarity := Config.openSegPadPolarity
  resetMechanism := Config.openResetMechanism

/-- `N` of this hardware, read from its configuration by State, the index checks and the meanings. -/
abbrev ndigits : Nat := config.n

/-- `NSEG` of this hardware. -/
abbrev nseg : Nat := config.nseg

/-- `NBTN` of this hardware. -/
abbrev nbtn : Nat := config.nbtn

/-- `RADIX` of this hardware. -/
abbrev radix : Nat := config.radix

/-- The one error of construction, `ConfigurationError` in the source and the refusal reason
`BadConfiguration` of R117. It is met before reset, never by a step (R115). -/
inductive ConfigurationError where
  /-- Raised by `Config.construct` when the digit count is 0 or a digit has not exactly 7 segments; safe:
  the block is not built. -/
  | badConfiguration
  deriving DecidableEq, Repr

/-- The elaboration-time check of R115: `config` with `digits` digits of `segments` segments each, or the
refusal. -/
def Config.construct (digits segments : Nat) : Except ConfigurationError Config :=
  if h : 1 ≤ digits then
    if segments = config.nseg then .ok { config with n := digits, digits_pos := h }
    else .error .badConfiguration
  else .error .badConfiguration

end Sys2Proof
end

