-- ==== Sys2Proof/Syntax.lean ====
section
/-! DEFINITION. The operations of the block: one constructor of `Instr` for each of the 19 rows of
spec/opcode_table.json (rules R53, R56), the command words they are issued as, and the pseudo-operations of
R65. -/

namespace Sys2Proof

/-- The outcome of the priority decode of one event word (R53). -/
inductive Command where
  | inc
  | dec
  | rst
  | nop
  deriving DecidableEq, Repr

/-- The operations. An index is a `Nat` as written by the issuer; its range (R39, R61) is checked by
`Instr.wf` and by the meanings. An amount is any integer (R57); only the word is limited to 8 bits. -/
inductive Instr where
  /-- `EVT.INC` (R104). The operands are `EVT[1]` and `EVT[2]`, the decrement and reset events it drops. -/
  | evtInc (droppedDec droppedRst : Bool)
  /-- `EVT.DEC` (R105). The operand is `EVT[2]`, the reset event it drops. -/
  | evtDec (droppedRst : Bool)
  /-- `EVT.RST` (R106). -/
  | evtRst
  /-- `EVT.NOP` (R108). -/
  | evtNop
  /-- `NOP` (R110). -/
  | nop
  /-- `DIG.ADD d, amount` (R70). -/
  | digAdd (d : Nat) (amount : Int)
  /-- `DIG.RST d` (R73). -/
  | digRst (d : Nat)
  /-- `DIG.RENDER d` (R74). -/
  | digRender (d : Nat)
  /-- `CNT.ADD amount` (R76). -/
  | cntAdd (amount : Int)
  /-- `CNT.RST` (R80). -/
  | cntRst
  /-- `CNT.RENDER` (R81). -/
  | cntRender
  /-- `SEG.SET d, pattern` (R84). -/
  | segSet (d : Nat) (pattern : Pattern)
  /-- `SEG.GET d` (R85). -/
  | segGet (d : Nat)
  /-- `SEGBIT.SET d, k, v` (R86). -/
  | segBitSet (d k : Nat) (v : Bool)
  /-- `SEGBIT.GET d, k` (R87). -/
  | segBitGet (d k : Nat)
  /-- `BTN.SAMPLE b, level` (R92). -/
  | btnSample (b : Nat) (level : Level)
  /-- `BTN.CHANGED b` (R93). -/
  | btnChanged (b : Nat)
  /-- `TICK lvl` (R100). -/
  | tick (lvl : LvlWord)
  /-- `CMD evt` (R109). -/
  | cmd (evt : EvtWord)
  deriving DecidableEq, Repr

/-- The row's mnemonic in spec/opcode_table.json. -/
def Instr.mnemonic : Instr → String
  | .evtInc _ _ => "EVT.INC"
  | .evtDec _ => "EVT.DEC"
  | .evtRst => "EVT.RST"
  | .evtNop => "EVT.NOP"
  | .nop => "NOP"
  | .digAdd _ _ => "DIG.ADD"
  | .digRst _ => "DIG.RST"
  | .digRender _ => "DIG.RENDER"
  | .cntAdd _ => "CNT.ADD"
  | .cntRst => "CNT.RST"
  | .cntRender => "CNT.RENDER"
  | .segSet _ _ => "SEG.SET"
  | .segGet _ => "SEG.GET"
  | .segBitSet _ _ _ => "SEGBIT.SET"
  | .segBitGet _ _ => "SEGBIT.GET"
  | .btnSample _ _ => "BTN.SAMPLE"
  | .btnChanged _ => "BTN.CHANGED"
  | .tick _ => "TICK"
  | .cmd _ => "CMD"

/-- A command word as it is handed to the block: a 3-bit event word (R52) or a 16-bit operation word
(R55). -/
inductive OpWord where
  | evt (w : EvtWord)
  | uop (w : UopWord)
  deriving DecidableEq, Repr

/-- The source's default amount: an assembler line that omits the amount means `+1` (R57). -/
abbrev defaultAmount : Int := 1

/-- The pseudo-operations of R65. -/
inductive Pseudo where
  | cntInc
  | cntDec
  | digInc (d : Nat)
  | digDec (d : Nat)
  | segClr (d : Nat)
  | idle
  | btnPoll (b : Nat) (level : Level)
  deriving DecidableEq, Repr

/-- The expansions of R65, in issue order. -/
def Pseudo.expand : Pseudo → List Instr
  | .cntInc => [.cntAdd defaultAmount]
  | .cntDec => [.cntAdd (-1)]
  | .digInc d => [.digAdd d defaultAmount]
  | .digDec d => [.digAdd d (-1)]
  | .segClr d => [.segSet d 0x00#7]
  | .idle => [.tick 0b111#3]
  | .btnPoll b level => [.btnSample b level, .btnChanged b]

end Sys2Proof
end

