-- ==== Sys2Proof/WellFormed.lean ====
section
/-! DEFINITION. Which operations a legal word can spell: the index ranges of R39 and R61, the segment
range of R59 and the 8-bit amount of R57. -/

namespace Sys2Proof

/-- `d < N` (R61); with `N = 2` every legal index fits the 4-bit `idx` field. -/
def digitIndexLegal (d : Nat) : Bool := decide (d < ndigits)

/-- `b <= 2` (R61). -/
def buttonIndexLegal (b : Nat) : Bool := decide (b < nbtn)

/-- `k <= 6` (R59). -/
def segmentIndexLegal (k : Nat) : Bool := decide (k < nseg)

/-- The amount fits `sext_8` (R57). -/
def amountFits (amount : Int) : Bool := decide (-128 ≤ amount) && decide (amount ≤ 127)

/-- The range checks of R57, R59 and R61; every other operand fits its field by its type. -/
def Instr.wf : Instr → Bool
  | .evtInc _ _ => true
  | .evtDec _ => true
  | .evtRst => true
  | .evtNop => true
  | .nop => true
  | .digAdd d amount => digitIndexLegal d && amountFits amount
  | .digRst d => digitIndexLegal d
  | .digRender d => digitIndexLegal d
  | .cntAdd amount => amountFits amount
  | .cntRst => true
  | .cntRender => true
  | .segSet d _ => digitIndexLegal d
  | .segGet d => digitIndexLegal d
  | .segBitSet d k _ => digitIndexLegal d && segmentIndexLegal k
  | .segBitGet d k => digitIndexLegal d && segmentIndexLegal k
  | .btnSample b _ => buttonIndexLegal b
  | .btnChanged b => buttonIndexLegal b
  | .tick _ => true
  | .cmd _ => true

end Sys2Proof
end

