-- ==== Sys2Proof/Decode.lean ====
section
/-! DEFINITION. The decoder of the two command words, total on every word and rejecting by name, the encoder
after it, and the match/mask rows of spec/opcode_table.json (rules R47, R53 to R62). -/

namespace Sys2Proof

/-- Why a word or a nibble is no encoding. -/
inductive DecodeError where
  /-- `IllegalUop`, whatever the number of reasons (R62, R119). Safe: the block has no such operation. -/
  | illegalUop
  /-- A raw nibble 10 to 15 offered as a digit (R47, U7). Safe: it is no digit. -/
  | illegalNibble
  deriving DecidableEq, Repr

/-! ### The digit nibble (R47) -/

/-- Binary-coded decimal: the nibble equal to the digit's value (R47). -/
def encodeDigit (d : Digit) : BitVec 4 := BitVec.ofNat 4 d.val

/-- The codes `0b1010` to `0b1111` are not encodings of any digit and are refused (R47). -/
def decodeDigit (b : BitVec 4) : Except DecodeError Digit :=
  if h : b.toNat < radix then .ok ⟨b.toNat, h⟩ else .error .illegalNibble

/-! ### The event word (R53) -/

/-- The priority increment > decrement > reset (R53). -/
def decodeCommand (e : EvtWord) : Command :=
  if e.getLsbD 0 then .inc
  else if e.getLsbD 1 then .dec
  else if e.getLsbD 2 then .rst
  else .nop

/-- The `EVT3` row of an event word, with the events it drops (R53, R54). No event word is illegal. -/
def decodeEvt (e : EvtWord) : Instr :=
  match decodeCommand e with
  | .inc => .evtInc (e.getLsbD 1) (e.getLsbD 2)
  | .dec => .evtDec (e.getLsbD 2)
  | .rst => .evtRst
  | .nop => .evtNop

/-! ### The operation word (R55 to R62) -/

/-- `op = w[15:12]` (R55). -/
def opField (w : UopWord) : BitVec 4 := w.extractLsb' 12 4

/-- `idx = w[11:8]` (R55). -/
def idxField (w : UopWord) : BitVec 4 := w.extractLsb' 8 4

/-- `imm = w[7:0]` (R55). -/
def immField (w : UopWord) : BitVec 8 := w.extractLsb' 0 8

/-- A word is legal iff its must-be-zero bits are 0 and its indices are in range (R62). -/
def acceptUop (mustBeZero : Bool) (i : Instr) : Except DecodeError Instr :=
  if mustBeZero && i.wf then .ok i else .error .illegalUop

/-- The rows of R56, with the fields of R57 to R61. -/
def decodeFields (op idx : BitVec 4) (imm : BitVec 8) : Except DecodeError Instr :=
  match op.toNat with
  | 0x0 => acceptUop (idx == 0#4 && imm == 0#8) .nop
  | 0x1 => acceptUop true (.digAdd idx.toNat imm.toInt)
  | 0x2 => acceptUop (imm == 0#8) (.digRst idx.toNat)
  | 0x3 => acceptUop (imm == 0#8) (.digRender idx.toNat)
  | 0x4 => acceptUop (idx == 0#4) (.cntAdd imm.toInt)
  | 0x5 => acceptUop (idx == 0#4 && imm == 0#8) .cntRst
  | 0x6 => acceptUop (idx == 0#4 && imm == 0#8) .cntRender
  | 0x7 => acceptUop (!imm.getLsbD 7) (.segSet idx.toNat (imm.extractLsb' 0 7))
  | 0x8 => acceptUop (imm == 0#8) (.segGet idx.toNat)
  | 0x9 => acceptUop (imm.extractLsb' 3 4 == 0#4)
             (.segBitSet idx.toNat (imm.extractLsb' 0 3).toNat (imm.getLsbD 7))
  | 0xA => acceptUop (imm.extractLsb' 3 5 == 0#5) (.segBitGet idx.toNat (imm.extractLsb' 0 3).toNat)
  | 0xB => acceptUop (imm.extractLsb' 1 7 == 0#7) (.btnSample idx.toNat (imm.getLsbD 0))
  | 0xC => acceptUop (imm == 0#8) (.btnChanged idx.toNat)
  | 0xD => acceptUop (idx == 0#4 && imm.extractLsb' 3 5 == 0#5) (.tick (imm.extractLsb' 0 3))
  | 0xE => acceptUop (idx == 0#4 && imm.extractLsb' 3 5 == 0#5) (.cmd (imm.extractLsb' 0 3))
  | _ => .error .illegalUop

/-- The decoder of the operation word. -/
def decodeUop (w : UopWord) : Except DecodeError Instr :=
  decodeFields (opField w) (idxField w) (immField w)

/-- The decoder: total on every command word. -/
def decode : OpWord → Except DecodeError Instr
  | .evt e => .ok (decodeEvt e)
  | .uop w => decodeUop w

/-- A row of spec/opcode_table.json as a number of `nbits` bits, bit 0 least significant: an `EVT3` row is
given in one byte and an `UOP16` row in two (log 13). A number too large for an event word is read as an
operation word; one too large for both is no word, and is sent as the reserved code. -/
def OpWord.ofTable (nbits w : Nat) : OpWord :=
  if nbits ≤ 8 ∧ w < 8 then .evt (BitVec.ofNat 3 w)
  else if nbits ≤ 16 ∧ w < 65536 then .uop (BitVec.ofNat 16 w)
  else .uop 0xF000#16

/-- The instruction the decoder reads from a table row's word. -/
def decodeTableWord (nbits w : Nat) : Option Instr :=
  match decode (OpWord.ofTable nbits w) with
  | .ok i => some i
  | .error _ => none

/-! ### The encoder -/

/-- `op[15:12] idx[11:8] imm[7:0]` (R55). -/
def packUop (op idx : BitVec 4) (imm : BitVec 8) : UopWord := op ++ idx ++ imm

/-- The word of an operation whose operands fit the fields (R56 to R61); for an event row, the event word
with the events it drops (R53). -/
def encode : Instr → OpWord
  | .evtInc dec rst => .evt (BitVec.ofBool rst ++ BitVec.ofBool dec ++ 1#1)
  | .evtDec rst => .evt (BitVec.ofBool rst ++ 0b10#2)
  | .evtRst => .evt 0b100#3
  | .evtNop => .evt 0b000#3
  | .nop => .uop (packUop 0x0#4 0#4 0#8)
  | .digAdd d amount => .uop (packUop 0x1#4 (BitVec.ofNat 4 d) (BitVec.ofInt 8 amount))
  | .digRst d => .uop (packUop 0x2#4 (BitVec.ofNat 4 d) 0#8)
  | .digRender d => .uop (packUop 0x3#4 (BitVec.ofNat 4 d) 0#8)
  | .cntAdd amount => .uop (packUop 0x4#4 0#4 (BitVec.ofInt 8 amount))
  | .cntRst => .uop (packUop 0x5#4 0#4 0#8)
  | .cntRender => .uop (packUop 0x6#4 0#4 0#8)
  | .segSet d p => .uop (packUop 0x7#4 (BitVec.ofNat 4 d) (0#1 ++ p))
  | .segGet d => .uop (packUop 0x8#4 (BitVec.ofNat 4 d) 0#8)
  | .segBitSet d k v =>
    .uop (packUop 0x9#4 (BitVec.ofNat 4 d) (BitVec.ofBool v ++ 0#4 ++ BitVec.ofNat 3 k))
  | .segBitGet d k => .uop (packUop 0xA#4 (BitVec.ofNat 4 d) (0#5 ++ BitVec.ofNat 3 k))
  | .btnSample b level => .uop (packUop 0xB#4 (BitVec.ofNat 4 b) (0#7 ++ BitVec.ofBool level))
  | .btnChanged b => .uop (packUop 0xC#4 (BitVec.ofNat 4 b) 0#8)
  | .tick lvl => .uop (packUop 0xD#4 0#4 (0#5 ++ lvl))
  | .cmd evt => .uop (packUop 0xE#4 0#4 (0#5 ++ evt))

/-- The words of a pseudo-operation (R65). -/
def Pseudo.words (p : Pseudo) : List OpWord := p.expand.map encode

/-! ### The rows of spec/opcode_table.json, transcribed -/

/-- What the `idx` field of an `UOP16` row holds (R61). -/
inductive IndexKind where
  | mustBeZero
  | digit
  | button
  deriving DecidableEq, Repr

/-- One `UOP16` row: `w` matches it iff `w &&& mask = bits` (R56). -/
structure UopRow where
  mnemonic : String
  bits : UopWord
  mask : UopWord
  idx : IndexKind
  /-- `imm[2:0]` selects a segment (R59). -/
  segment : Bool
  deriving DecidableEq, Repr

/-- The fifteen rows of R56. -/
def uopRows : List UopRow :=
  [⟨"NOP", 0x0000#16, 0xFFFF#16, .mustBeZero, false⟩,
   ⟨"DIG.ADD", 0x1000#16, 0xF000#16, .digit, false⟩,
   ⟨"DIG.RST", 0x2000#16, 0xF0FF#16, .digit, false⟩,
   ⟨"DIG.RENDER", 0x3000#16, 0xF0FF#16, .digit, false⟩,
   ⟨"CNT.ADD", 0x4000#16, 0xFF00#16, .mustBeZero, false⟩,
   ⟨"CNT.RST", 0x5000#16, 0xFFFF#16, .mustBeZero, false⟩,
   ⟨"CNT.RENDER", 0x6000#16, 0xFFFF#16, .mustBeZero, false⟩,
   ⟨"SEG.SET", 0x7000#16, 0xF080#16, .digit, false⟩] ++
  [⟨"SEG.GET", 0x8000#16, 0xF0FF#16, .digit, false⟩,
   ⟨"SEGBIT.SET", 0x9000#16, 0xF078#16, .digit, true⟩,
   ⟨"SEGBIT.GET", 0xA000#16, 0xF0F8#16, .digit, true⟩,
   ⟨"BTN.SAMPLE", 0xB000#16, 0xF0FE#16, .button, false⟩,
   ⟨"BTN.CHANGED", 0xC000#16, 0xF0FF#16, .button, false⟩,
   ⟨"TICK", 0xD000#16, 0xFFF8#16, .mustBeZero, false⟩,
   ⟨"CMD", 0xE000#16, 0xFFF8#16, .mustBeZero, false⟩]

/-- `w & mask = match` (R56). -/
def UopRow.matchesWord (r : UopRow) (w : UopWord) : Bool := (w &&& r.mask) == r.bits

/-- The range checks of R61 and the `k = 7` check of R59 that the masks do not say. -/
def UopRow.inRange (r : UopRow) (w : UopWord) : Bool :=
  (match r.idx with
   | .mustBeZero => true
   | .digit => digitIndexLegal (idxField w).toNat
   | .button => buttonIndexLegal (idxField w).toNat) &&
  (!r.segment || segmentIndexLegal (w.extractLsb' 0 3).toNat)

/-- One `EVT3` row (R53). -/
structure EvtRow where
  mnemonic : String
  command : Command
  bits : EvtWord
  mask : EvtWord
  deriving DecidableEq, Repr

/-- The four rows of R53. -/
def evtRows : List EvtRow :=
  [⟨"EVT.INC", .inc, 0b001#3, 0b001#3⟩,
   ⟨"EVT.DEC", .dec, 0b010#3, 0b011#3⟩,
   ⟨"EVT.RST", .rst, 0b100#3, 0b111#3⟩,
   ⟨"EVT.NOP", .nop, 0b000#3, 0b111#3⟩]

/-- `EVT & mask = match` (R53). -/
def EvtRow.matchesWord (r : EvtRow) (e : EvtWord) : Bool := (e &&& r.mask) == r.bits

end Sys2Proof
end

