-- ==== Sys2Proof/Machine/State.lean ====
section
/-! DEFINITION. The state of the block as plain data (spec/10_state.md rule R31), its reset value (R30), and
the reasons a step can stop. -/

namespace Sys2Proof.Machine

/-- The seven one-bit segment registers of one display, `seg[d][0..6]` = a..g; `true` = lit (R19). -/
structure SegmentMap where
  a : Bool
  b : Bool
  c : Bool
  d : Bool
  e : Bool
  f : Bool
  g : Bool
  deriving DecidableEq, Repr

/-- The two sample latches of one button; `none` = no sample yet (R11, R21). An optional level is the valid
bit and the value bit, and equality ignores the value bit of an invalid latch, as R31 asks. -/
structure EdgeDetector where
  prev : Option Level
  cur : Option Level
  deriving DecidableEq, Repr

/-- The value an operation returns to its issuer (R67). -/
inductive Result where
  | none
  /-- `DIG.ADD`. -/
  | wrap (didWrap : Bool)
  /-- `DIG.RENDER`, `SEG.GET`. -/
  | pattern (p : Pattern)
  /-- `CNT.RENDER`, index 0 first. -/
  | patterns (ps : Vector Pattern ndigits)
  /-- `SEGBIT.GET`. -/
  | segment (v : Bool)
  /-- `BTN.SAMPLE`. -/
  | level (l : Level)
  /-- `BTN.CHANGED`. -/
  | changed (r : Bool)
  /-- `TICK`, `CMD`: `(cmd, rendered)` (R113). -/
  | executed (cmd : Command) (rendered : Bool)
  deriving DecidableEq, Repr

/-- The four groups of R31, then three fields that are the MODEL'S own and no state of the block: the value
the last operation returned (R67, log 4), the words the harness has issued and the block has not yet taken
(R29, R43, log 1), and how many free polling iterations have been drawn (log 2). -/
structure State where
  /-- `digit[0..N-1]`, index 0 the least significant (R15). -/
  digits : Vector Digit ndigits
  /-- `seg[0..N-1]`, the Display (R19); the outputs `seg_o` equal it (R90). -/
  segs : Vector SegmentMap ndigits
  /-- `btn[0..2]`: increment, decrement, reset (R21). -/
  btns : Vector EdgeDetector nbtn
  /-- The render-dirty flag (R24). -/
  dirty : Bool
  /-- MODEL: the value returned by the latest operation. -/
  result : Result
  /-- MODEL: words issued and not yet executed, oldest first. -/
  issued : List OpWord
  /-- MODEL: the number of environment answers taken so far. -/
  draws : Nat
  deriving DecidableEq, Repr

/-- What stops the machine with a fault: nothing. The step answers a next state or a refusal (R120), and a failed
hardware read leaves the block stuck at its tick boundary, which is a state (R116, U13, log 3). -/
inductive Fault where
  deriving DecidableEq, Repr

/-- Why an operation has no meaning; a refused operation changes no state and returns nothing (R117). The
third reason of R117, `BadConfiguration`, is met at construction only: `ConfigurationError`. -/
inductive Refusal where
  /-- Raised by no one in this model: every row has its meaning. -/
  | notModelled (mnemonic : String)
  /-- `IllegalUop`: raised by `step` on an illegal word (R62) and by the meanings on an index out of range
  (R39). Safe: the operation names state that does not exist (D17, D18). -/
  | illegalUop
  /-- `ChangedBeforeSample`: raised by `BTN.CHANGED` on a detector that has taken no sample (R96). Safe: the
  source gives the operation no meaning there (D5). -/
  | changedBeforeSample
  deriving DecidableEq, Repr

/-- The outcome of a meaning or a step. -/
abbrev Outcome := Host.Outcome State Fault Refusal

/-- All seven segments of one display at one value. -/
abbrev SegmentMap.all (v : Bool) : SegmentMap := ⟨v, v, v, v, v, v, v⟩

/-- A detector that has taken no sample: `UNINITIALIZED` (R22). -/
abbrev EdgeDetector.initial : EdgeDetector := ⟨Option.none, Option.none⟩

/-- The reset state (R30, R130): digits 0, latches `None`, `dirty = DIRTY_RESET`, segments `SEG_RESET`. The
last three fields are the model's own: nothing returned, nothing issued, nothing drawn. -/
def State.reset : State where
  digits := Vector.replicate ndigits 0
  segs := Vector.replicate ndigits (SegmentMap.all config.segReset)
  btns := Vector.replicate nbtn EdgeDetector.initial
  dirty := config.dirtyReset
  result := .none
  issued := []
  draws := 0

end Sys2Proof.Machine
end

