-- ==== Sys2Proof/Machine/Flags.lean ====
section
/-! DEFINITION. The computed signals of the block: the decimal sum and its wrap (R10, R70), the ripple unit
(R77), the change and event signals of a detector (R93, R102), and the writes of the `dirty` flag (R24). None
of the signals is state (R25). -/

namespace Sys2Proof.Machine

/-- `fmod10`: the unique `r` in `0..9` with `x - r` divisible by 10, for every integer (R10). Lean's `%` with
a positive divisor is the floored modulo. -/
def fmod10 (x : Int) : Digit := ⟨(x % (radix : Int)).toNat, by show (x % 10).toNat < 10; omega⟩

/-- The exact sum of R70, of no fixed width. -/
def digitSum (old : Digit) (amount : Int) : Int := (old.val : Int) + amount

/-- `did_wrap = (s != new)`, the comparison taken with the digit before the write (R70, C9). -/
def didWrap (old : Digit) (amount : Int) : Bool :=
  decide (digitSum old amount ≠ ((fmod10 (digitSum old amount)).val : Int))

/-- `Digit.increment`: the new digit and whether it wrapped (R70). -/
def addDigit (old : Digit) (amount : Int) : Digit × Bool :=
  (fmod10 (digitSum old amount), didWrap old amount)

/-- The ripple unit: magnitude one, the direction of the amount (R77, C1). For 0 it is never evaluated. -/
def unit (amount : Int) : Int := if 0 < amount then 1 else -1

/-- `changed[b]` of a sampled detector: no prior sample gives `FIRST_SAMPLE_EDGE`, two samples are compared
(R93, R94). -/
def EdgeDetector.changed (e : EdgeDetector) : Bool :=
  match e.prev with
  | Option.none => config.firstSampleEdge
  | some p => decide (some p ≠ e.cur)

/-- `evt[b] = changed[b] and (btn[b].cur = Some(PRESSED))` under `EVENT_EDGE = press` (R102). -/
def EdgeDetector.event (e : EdgeDetector) : Bool :=
  e.changed && decide (e.cur = some config.eventEdge.level)

/-- Command execution sets `dirty` (R104 to R106). -/
def State.setDirty (s : State) : State := { s with dirty := true }

/-- The render phase clears `dirty` (R107). -/
def State.clearDirty (s : State) : State := { s with dirty := false }

/-- The two states of a detector (R22). -/
inductive DetectorState where
  | uninitialized
  | sampled
  deriving DecidableEq, Repr

/-- `UNINITIALIZED` iff `cur = None`; a function of the latches, not a register (R22). -/
def EdgeDetector.state (e : EdgeDetector) : DetectorState :=
  match e.cur with
  | Option.none => .uninitialized
  | some _ => .sampled

/-- Direction of an edge (R97, R98). -/
inductive EdgeKind where
  | rising
  | falling
  deriving DecidableEq, Repr

/-- The result of `BTN.POLL` from the `changed` result and the level just sampled (R97). -/
def pollResult (changed : Bool) (level : Level) : Option EdgeKind :=
  match changed, level with
  | false, _ => Option.none
  | true, false => some .falling
  | true, true => some .rising

end Sys2Proof.Machine
end

