-- ==== Sys2Proof/Machine/Operands.lean ====
section
/-! DEFINITION. The operand forms: the three index ranges of R39, the bits of an `LVL` word (R51) and the
event word made of three events (R52). An amount, a pattern and a level are their own operands. -/

namespace Sys2Proof.Machine

/-- A digit or display index: legal iff `d < N`, else refused (R39). -/
def withDigit (d : Nat) (k : Fin ndigits → Outcome) : Outcome :=
  if h : d < ndigits then k ⟨d, h⟩ else .refused .illegalUop

/-- A segment index: legal iff `k <= 6`, else refused (R39). -/
def withSegment (k : Nat) (body : Fin nseg → Outcome) : Outcome :=
  if h : k < nseg then body ⟨k, h⟩ else .refused .illegalUop

/-- A button index: legal iff `b <= 2`, else refused (R39). -/
def withButton (b : Nat) (k : Fin nbtn → Outcome) : Outcome :=
  if h : b < nbtn then k ⟨b, h⟩ else .refused .illegalUop

/-- `lvl[b]`, the level of button `b` (R51). -/
def levelOf (lvl : LvlWord) (b : Fin nbtn) : Level := lvl.getLsbD b.val

/-- `EVT = {evt[2], evt[1], evt[0]}` (R52, R100). -/
def eventWord (inc dec rst : Bool) : EvtWord :=
  BitVec.ofBool rst ++ BitVec.ofBool dec ++ BitVec.ofBool inc

end Sys2Proof.Machine
end

