-- ==== Sys2Proof/Machine/Ops.lean ====
section
/-! DEFINITION. The named operations over the registers, each written once and shared by the meanings: the
digits and the ripple (spec/40_digit.md, 41_counter.md), the segment registers (42_segment_map.md), the
detectors (43_edge_detector.md) and the phases of a tick (44_tick_control.md). The block has no memory (R33)
and no trap (R120), so there is no memory operation and no exception entry. -/

namespace Sys2Proof.Machine

/-- Hands `r` to the issuer (R67). -/
def State.ret (s : State) (r : Result) : State := { s with result := r }

/-! ### Digits and counter -/

/-- `digit[d] <- v` (R9). -/
def State.writeDigit (s : State) (d : Fin ndigits) (v : Digit) : State :=
  { s with digits := s.digits.set d.val v d.isLt }

/-- `DIG.ADD`: the state after the write, and `did_wrap` (R70). -/
def State.digAdd (s : State) (d : Fin ndigits) (amount : Int) : State × Bool :=
  let r := addDigit s.digits[d] amount
  (s.writeDigit d r.1, r.2)

/-- `SEG_TABLE[digit[d]]`; the index is in range by its type (R34, R74). -/
def State.digRender (s : State) (d : Fin ndigits) : Pattern := config.segTable[s.digits[d]]

/-- The loop of R76 over the digits from the current one upward: add `a`; if the digit wrapped and a higher
one exists, go on with the ripple unit `u`. The last wrap is dropped (R78). -/
def ripple (u : Int) : Int → List Digit → List Digit
  | _, [] => []
  | a, d :: ds =>
    let r := addDigit d a
    if r.2 then r.1 :: ripple u u ds else r.1 :: ds

theorem length_ripple (u : Int) : ∀ (a : Int) (ds : List Digit), (ripple u a ds).length = ds.length
  | _, [] => rfl
  | a, d :: ds => by
    simp only [ripple]
    split <;> simp [length_ripple u u ds]

/-- `CNT.ADD` on the digits of a counter of any size (R76). -/
def addCounter (amount : Int) {n : Nat} (ds : Vector Digit n) : Vector Digit n :=
  ⟨(ripple (unit amount) amount ds.toList).toArray, by simp [length_ripple]⟩

/-- `CNT.ADD`; `dirty` is not written (R76, C13). -/
def State.cntAdd (s : State) (amount : Int) : State :=
  { s with digits := addCounter amount s.digits }

/-- `CNT.RST`: every digit 0 and nothing else (R80). -/
def State.cntRst (s : State) : State := { s with digits := Vector.replicate ndigits 0 }

/-- The arrangement of the per-digit results under `RENDER_ORDER` (R81, R107). -/
def arrange {α : Type} {n : Nat} (order : RenderOrder) (v : Vector α n) : Vector α n :=
  match order with
  | .leastSignificantFirst => v

/-- `CNT.RENDER`: the patterns of all digits (R81). -/
def State.cntRender (s : State) : Vector Pattern ndigits :=
  arrange config.renderOrder (Vector.ofFn fun d => s.digRender d)

/-- The counter's value `sum of digit[i] * 10^i`, least significant first (R17). -/
def counterValue : List Digit → Nat
  | [] => 0
  | d :: ds => d.val + radix * counterValue ds

/-- The value the block counts; not stored apart from the digits (R17). -/
def State.value (s : State) : Nat := counterValue s.digits.toList

/-! ### Segment registers -/

/-- `seg[d][k]` of one display: 0..6 are a..g (R19). -/
def SegmentMap.get (m : SegmentMap) (k : Fin nseg) : Bool :=
  match k with
  | 0 => m.a
  | 1 => m.b
  | 2 => m.c
  | 3 => m.d
  | 4 => m.e
  | 5 => m.f
  | 6 => m.g

/-- `seg[d][k] <- v` of one display (R86). -/
def SegmentMap.set (m : SegmentMap) (k : Fin nseg) (v : Bool) : SegmentMap :=
  match k with
  | 0 => { m with a := v }
  | 1 => { m with b := v }
  | 2 => { m with c := v }
  | 3 => { m with d := v }
  | 4 => { m with e := v }
  | 5 => { m with f := v }
  | 6 => { m with g := v }

/-- `set_segments`: bit `k` of the pattern to segment `k`, low to high (R84). -/
def SegmentMap.unpack (p : Pattern) : SegmentMap where
  a := p.getLsbD 0
  b := p.getLsbD 1
  c := p.getLsbD 2
  d := p.getLsbD 3
  e := p.getLsbD 4
  f := p.getLsbD 5
  g := p.getLsbD 6

/-- `{ seg[6], seg[5], ..., seg[0] }` (R85). -/
def SegmentMap.pack (m : SegmentMap) : Pattern :=
  BitVec.ofBool m.g ++ BitVec.ofBool m.f ++ BitVec.ofBool m.e ++ BitVec.ofBool m.d ++
    BitVec.ofBool m.c ++ BitVec.ofBool m.b ++ BitVec.ofBool m.a

/-- Write the seven registers of display `d` together (R84). -/
def State.writeSegs (s : State) (d : Fin ndigits) (m : SegmentMap) : State :=
  { s with segs := s.segs.set d.val m d.isLt }

/-- The output pin `seg_o[d][k]`: it equals its register at all times (R20, R90). -/
def State.pin (s : State) (d : Fin ndigits) (k : Fin nseg) : Bool := (s.segs[d]).get k

/-! ### Edge detectors -/

/-- `sample()`: shift, then store the new level (R92). -/
def EdgeDetector.sample (e : EdgeDetector) (level : Level) : EdgeDetector :=
  { prev := e.cur, cur := some level }

/-- `previous = current`: the change is consumed (R93). -/
def EdgeDetector.consume (e : EdgeDetector) : EdgeDetector := { e with prev := e.cur }

/-- Write both latches of button `b` (R23). -/
def State.writeBtn (s : State) (b : Fin nbtn) (e : EdgeDetector) : State :=
  { s with btns := s.btns.set b.val e b.isLt }

/-- `BTN.SAMPLE` on the latches (R92). -/
def State.btnSample (s : State) (b : Fin nbtn) (level : Level) : State :=
  s.writeBtn b ((s.btns[b]).sample level)

/-- `BTN.CHANGED`: `changed[b]` and the state with the change consumed; `none` where it is refused, on a
detector that has taken no sample (R93, R96). -/
def State.btnChanged (s : State) (b : Fin nbtn) : Option (Bool × State) :=
  match (s.btns[b]).cur with
  | Option.none => Option.none
  | some _ => some ((s.btns[b]).changed, s.writeBtn b (s.btns[b]).consume)

/-! ### The phases of a tick -/

/-- Phase 1: every button is sampled once (R101). -/
def State.samplePhase (s : State) (lvl : LvlWord) : State :=
  ((s.btnSample 0 (levelOf lvl 0)).btnSample 1 (levelOf lvl 1)).btnSample 2 (levelOf lvl 2)

/-- One button's part of phase 2: its event, and its change consumed. Inside a tick the detector has just
been sampled, so the refusal of R96 cannot arise (R100). -/
def State.buttonEvent (s : State) (b : Fin nbtn) : Bool × State :=
  ((s.btns[b]).event, s.writeBtn b (s.btns[b]).consume)

/-- Phase 2: all three buttons, whichever will win (R102). -/
def State.eventPhase (s : State) : EvtWord × State :=
  let inc := s.buttonEvent 0
  let dec := inc.2.buttonEvent 1
  let rst := dec.2.buttonEvent 2
  (eventWord inc.1 dec.1 rst.1, rst.2)

/-- Phase 4: execute one command (R104, R105, R106, R108). -/
def State.execute (s : State) : Command → State
  | .inc => (s.cntAdd 1).setDirty
  | .dec => (s.cntAdd (-1)).setDirty
  | .rst => s.cntRst.setDirty
  | .nop => s

/-- Every display rewritten from its digit (R107). -/
def State.renderAll (s : State) : State :=
  { s with segs := arrange config.renderOrder (Vector.ofFn fun d => SegmentMap.unpack (s.digRender d)) }

/-- Phase 5: render and clear `dirty` if it is set; the second part is `rendered` (R107). -/
def State.renderPhase (s : State) : State × Bool :=
  if s.dirty then (s.renderAll.clearDirty, true) else (s, false)

/-- Phase 5 and the end of a command that phase 4 has executed, returning `(cmd, rendered)` (R100, R113). -/
def State.finish (s : State) (c : Command) : State :=
  let r := s.renderPhase
  r.1.ret (.executed c r.2)

/-- Phases 4 and 5 for a decided command (R100, R109). -/
def State.apply (s : State) (c : Command) : State := (s.execute c).finish c

/-- What the block adds to a row's own effect before the step ends. An event word is executed whole, phases 3 to
5 in one atomic step: its row was phase 4, and phase 5 follows (R24, R41, R52, log 14). An operation word's row
is the whole operation. -/
def complete (w : OpWord) (o : Outcome) : Outcome :=
  match w with
  | .uop _ => o
  | .evt e =>
    match o with
    | .next s => .next (s.finish (decodeCommand e))
    | .fault r => .fault r
    | .refused r => .refused r

end Sys2Proof.Machine
end

