-- ==== Sys2Proof/Machine/Button.lean ====
section
/-! DEFINITION. The meanings of the edge-detector operations (spec/43_edge_detector.md). -/

namespace Sys2Proof.Machine

/-- `BTN.SAMPLE b, level`: shift the latches, store the level, return it (R92). -/
def execBtnSample (b : Nat) (level : Level) (s : State) : Outcome :=
  withButton b fun b => .next ((s.btnSample b level).ret (.level level))

/-- `BTN.CHANGED b`: report the difference and consume it; refused on a detector that has taken no sample
(R93, R96). -/
def execBtnChanged (b : Nat) (s : State) : Outcome :=
  withButton b fun b =>
    match s.btnChanged b with
    | Option.none => .refused .changedBeforeSample
    | some (r, t) => .next (t.ret (.changed r))

end Sys2Proof.Machine
end

