-- ==== Sys2Proof/Machine/Counter.lean ====
section
/-! DEFINITION. The meanings of the counter operations (spec/41_counter.md). -/

namespace Sys2Proof.Machine

/-- `CNT.ADD amount`: the ripple of single units; returns nothing (R76). -/
def execCntAdd (amount : Int) (s : State) : Outcome := .next ((s.cntAdd amount).ret .none)

/-- `CNT.RST`: every digit 0 (R80). -/
def execCntRst (s : State) : Outcome := .next (s.cntRst.ret .none)

/-- `CNT.RENDER`: returns the `N` patterns, writes nothing (R81). -/
def execCntRender (s : State) : Outcome := .next (s.ret (.patterns s.cntRender))

end Sys2Proof.Machine
end

