-- ==== Sys2Proof/Machine/Digit.lean ====
section
/-! DEFINITION. The meanings of the digit operations (spec/40_digit.md). -/

namespace Sys2Proof.Machine

/-- `DIG.ADD d, amount`: returns `did_wrap`, writes `digit[d]` only (R70). -/
def execDigAdd (d : Nat) (amount : Int) (s : State) : Outcome :=
  withDigit d fun d =>
    let r := s.digAdd d amount
    .next (r.1.ret (.wrap r.2))

/-- `DIG.RST d`: `digit[d] <- 0` (R73). -/
def execDigRst (d : Nat) (s : State) : Outcome :=
  withDigit d fun d => .next ((s.writeDigit d 0).ret .none)

/-- `DIG.RENDER d`: returns `SEG_TABLE[digit[d]]`, writes nothing (R74). -/
def execDigRender (d : Nat) (s : State) : Outcome :=
  withDigit d fun d => .next (s.ret (.pattern (s.digRender d)))

end Sys2Proof.Machine
end

