-- ==== Sys2Proof/Machine/Event.lean ====
section
/-! DEFINITION. The meanings of the four `EVT3` rows: phase 4 of a tick for the command the event word
decodes to (spec/44_tick_control.md rules R104, R105, R106, R108). The render is phase 5, which `TICK`, `CMD` and
the step of an issued event word add in the same atomic step (log 14). A row returns nothing (R67). -/

namespace Sys2Proof.Machine

/-- `EVT.INC`: `CNT.ADD(+1)`; `dirty <- 1` (R104). The dropped events are lost (R54, R112). -/
def execEvtInc (_droppedDec _droppedRst : Bool) (s : State) : Outcome := .next ((s.execute .inc).ret .none)

/-- `EVT.DEC`: `CNT.ADD(-1)`; `dirty <- 1` (R105). The dropped event is lost (R54, R112). -/
def execEvtDec (_droppedRst : Bool) (s : State) : Outcome := .next ((s.execute .dec).ret .none)

/-- `EVT.RST`: `CNT.RST`; `dirty <- 1`, also when the counter is already 0 (R106, R111). -/
def execEvtRst (s : State) : Outcome := .next ((s.execute .rst).ret .none)

/-- `EVT.NOP`: nothing (R108). -/
def execEvtNop (s : State) : Outcome := .next ((s.execute .nop).ret .none)

end Sys2Proof.Machine
end

