-- ==== Sys2Proof/Machine/Segment.lean ====
section
/-! DEFINITION. The meanings of the SegmentMap operations (spec/42_segment_map.md). -/

namespace Sys2Proof.Machine

/-- `SEG.SET d, pattern`: the seven registers of display `d` together (R84). -/
def execSegSet (d : Nat) (p : Pattern) (s : State) : Outcome :=
  withDigit d fun d => .next ((s.writeSegs d (SegmentMap.unpack p)).ret .none)

/-- `SEG.GET d`: returns the pattern, writes nothing (R85). -/
def execSegGet (d : Nat) (s : State) : Outcome :=
  withDigit d fun d => .next (s.ret (.pattern (s.segs[d]).pack))

/-- `SEGBIT.SET d, k, v`: one register (R86). -/
def execSegBitSet (d k : Nat) (v : Bool) (s : State) : Outcome :=
  withDigit d fun d => withSegment k fun k =>
    .next ((s.writeSegs d ((s.segs[d]).set k v)).ret .none)

/-- `SEGBIT.GET d, k`: returns one register, writes nothing (R87). -/
def execSegBitGet (d k : Nat) (s : State) : Outcome :=
  withDigit d fun d => withSegment k fun k => .next (s.ret (.segment ((s.segs[d]).get k)))

end Sys2Proof.Machine
end

