-- ==== Sys2Proof/Machine/Tick.lean ====
section
/-! DEFINITION. The meanings of `TICK`, `CMD` and `NOP` (spec/44_tick_control.md). Each is one atomic step
with no duration (R41, R150). -/

namespace Sys2Proof.Machine

/-- `TICK lvl`: sample, events, arbitrate, execute, render (R100). -/
def execTick (lvl : LvlWord) (s : State) : Outcome :=
  let r := (s.samplePhase lvl).eventPhase
  .next (r.2.apply (decodeCommand r.1))

/-- `CMD evt`: phases 3 to 5 with a given event word; the latches are not touched (R109). -/
def execCmd (evt : EvtWord) (s : State) : Outcome := .next (s.apply (decodeCommand evt))

/-- `NOP`: reads nothing, writes nothing, returns nothing (R110). -/
def execNop (s : State) : Outcome := .next (s.ret .none)

end Sys2Proof.Machine
end

