-- ==== Sys2Proof/Machine/Dispatch.lean ====
section
/-! DEFINITION. One arm for each row of spec/opcode_table.json, in the table's order. -/

namespace Sys2Proof.Machine

def exec (i : Instr) (s : State) : Host.Outcome State Fault Refusal :=
  match i with
  | .evtInc dec rst => Sys2Proof.Machine.execEvtInc dec rst s
  | .evtDec rst => Sys2Proof.Machine.execEvtDec rst s
  | .evtRst => Sys2Proof.Machine.execEvtRst s
  | .evtNop => Sys2Proof.Machine.execEvtNop s
  | .nop => Sys2Proof.Machine.execNop s
  | .digAdd d amount => Sys2Proof.Machine.execDigAdd d amount s
  | .digRst d => Sys2Proof.Machine.execDigRst d s
  | .digRender d => Sys2Proof.Machine.execDigRender d s
  | .cntAdd amount => Sys2Proof.Machine.execCntAdd amount s
  | .cntRst => Sys2Proof.Machine.execCntRst s
  | .cntRender => Sys2Proof.Machine.execCntRender s
  | .segSet d p => Sys2Proof.Machine.execSegSet d p s
  | .segGet d => Sys2Proof.Machine.execSegGet d s
  | .segBitSet d k v => Sys2Proof.Machine.execSegBitSet d k v s
  | .segBitGet d k => Sys2Proof.Machine.execSegBitGet d k s
  | .btnSample b level => Sys2Proof.Machine.execBtnSample b level s
  | .btnChanged b => Sys2Proof.Machine.execBtnChanged b s
  | .tick lvl => Sys2Proof.Machine.execTick lvl s
  | .cmd evt => Sys2Proof.Machine.execCmd evt s

end Sys2Proof.Machine
end

