-- ==== Sys2Proof/Machine/Step.lean ====
section
/-! DEFINITION. One step of the block. There is no program counter and nothing is fetched from a memory
(R26, R33): the words come one after another from outside, and when the harness has issued none the block
performs its polling iteration, `TICK` (R56, R136). -/

namespace Sys2Proof.Machine

/-- The oldest issued word is decoded and executed, an event word through phase 5; an illegal word is refused
(R62). With no issued word the environment is asked for the three levels and one tick happens (R43), or the
read fails and the block is stuck where it is: no tick happens, now or later (R116, U13, log 3). -/
def step (s : State) : Host.Outcome State Fault Refusal :=
  match s.issued with
  | w :: rest =>
    match decode w with
    | .ok i => complete w (exec i { s with issued := rest })
    | .error _ => .refused .illegalUop
  | [] =>
    match Config.environment s.draws with
    | some lvl => exec (.tick lvl) { s with draws := s.draws + 1 }
    | Option.none => .next s

/-- `s` with one more word issued, ahead of all others, so that the next step takes it. -/
def State.withFetchWord (s : State) (nbits w : Nat) : State :=
  { s with issued := OpWord.ofTable nbits w :: s.issued }

end Sys2Proof.Machine
end

