-- ==== Sys2Proof/Safety.lean ====
section
/-! DEFINITION. The terms in which claims about a run are stated: the invariants of R22 and R32, press edges
(R102), what an operation needs to complete (R39, R96), and the software chain that R102 compares the parallel
tick with. -/

namespace Sys2Proof.Machine

/-- In `UNINITIALIZED`, `prev = None` too (R22). -/
abbrev LatchesLegal (s : State) : Prop :=
  ∀ b : Fin nbtn, (s.btns[b]).cur = Option.none → (s.btns[b]).prev = Option.none

/-- Every display shows its digit: `seg[d][6:0] = SEG_TABLE[digit[d]]` (R32). -/
abbrev ShowsCount (s : State) : Prop :=
  ∀ d : Fin ndigits, (s.segs[d]).pack = config.segTable[s.digits[d]]

/-- A render is due, or the displays are right already. -/
abbrev ShowsCountOrDirty (s : State) : Prop := s.dirty = true ∨ ShowsCount s

/-- Both latches of every button hold the level the word presents for it (R32). -/
abbrev LatchesHold (lvl : LvlWord) (s : State) : Prop :=
  ∀ b : Fin nbtn, s.btns[b] = ⟨some (levelOf lvl b), some (levelOf lvl b)⟩

/-- What holds at the boundary after a tick that was presented the levels `lvl` (R32). -/
def SettledAt (lvl : LvlWord) (s : State) : Prop := s.dirty = false ∧ LatchesHold lvl s ∧ ShowsCount s

/-- The harness has issued nothing but ticks: the block in normal operation (R32, R56). -/
def TicksOnly (s : State) : Prop := ∀ w ∈ s.issued, ∃ lvl, w = encode (.tick lvl)

/-- The sampled level of button `b` goes from released to pressed at a tick with levels `lvl` (R102). -/
def pressEdge (s : State) (lvl : LvlWord) (b : Fin nbtn) : Bool :=
  decide ((s.btns[b]).cur = some released) && decide (levelOf lvl b = pressed)

/-- Every index names state that exists (R39). -/
def indicesLegal : Instr → Bool
  | .evtInc _ _ => true
  | .evtDec _ => true
  | .evtRst => true
  | .evtNop => true
  | .nop => true
  | .digAdd d _ => digitIndexLegal d
  | .digRst d => digitIndexLegal d
  | .digRender d => digitIndexLegal d
  | .cntAdd _ => true
  | .cntRst => true
  | .cntRender => true
  | .segSet d _ => digitIndexLegal d
  | .segGet d => digitIndexLegal d
  | .segBitSet d k _ => digitIndexLegal d && segmentIndexLegal k
  | .segBitGet d k => digitIndexLegal d && segmentIndexLegal k
  | .btnSample b _ => buttonIndexLegal b
  | .btnChanged b => buttonIndexLegal b
  | .tick _ => true
  | .cmd _ => true

/-- `BTN.CHANGED` is only meaningful after a sample of that button (R96). -/
def changedAfterSample (i : Instr) (s : State) : Prop :=
  ∀ (b : Nat) (h : b < nbtn), i = .btnChanged b → (s.btns[b]).cur ≠ Option.none

/-- The software chain of R102: all buttons are sampled, then each change is asked for only while no earlier
button has matched. -/
def softwareEvents (s : State) : Command × State :=
  let inc := s.buttonEvent 0
  if inc.1 then (.inc, inc.2)
  else
    let dec := inc.2.buttonEvent 1
    if dec.1 then (.dec, dec.2)
    else
      let rst := dec.2.buttonEvent 2
      if rst.1 then (.rst, rst.2) else (.nop, rst.2)

/-- One iteration of the software loop with the chain of `softwareEvents`. -/
def softwareTick (lvl : LvlWord) (s : State) : State :=
  let r := softwareEvents (s.samplePhase lvl)
  r.2.apply r.1

/-- Two states that agree on everything but the `prev` latches: the outputs, the returned value and
everything the next tick can read. -/
structure AgreeButPrev (s t : State) : Prop where
  digits : s.digits = t.digits
  segs : s.segs = t.segs
  cur : ∀ b : Fin nbtn, (s.btns[b]).cur = (t.btns[b]).cur
  dirty : s.dirty = t.dirty
  result : s.result = t.result
  issued : s.issued = t.issued
  draws : s.draws = t.draws

end Sys2Proof.Machine
end

