-- ==== Sys2Proof/Certificates/Slice0/Obligations.lean ====
section
/-! DEFINITION. The statements for the provers, each a `Prop` that formalises rules of spec/. Where one rests on
a choice of the spec or of the model, its docstring says so. -/

open Sys2Proof Sys2Proof.Machine

/-! ### Encodings -/

/-- Ten words written out from the rows of R53 and R56, one or more of each family, and the reserved code. How
a table number is read, an event word in 8 bits and an operation word in 16, is the model's choice (log 13). -/
def Obligations.WrittenWordsDecode : Prop :=
  decodeTableWord 8 0b011 = some (.evtInc true false) ∧
  decodeTableWord 8 0b110 = some (.evtDec true) ∧
  decodeTableWord 16 0x0000 = some .nop ∧
  decodeTableWord 16 0x1080 = some (.digAdd 0 (-128)) ∧
  decodeTableWord 16 0x40FF = some (.cntAdd (-1)) ∧
  decodeTableWord 16 0x717F = some (.segSet 1 0x7f#7) ∧
  decodeTableWord 16 0x9086 = some (.segBitSet 0 6 true) ∧
  decodeTableWord 16 0xB200 = some (.btnSample 2 pressed) ∧
  decodeTableWord 16 0xD006 = some (.tick 0b110#3) ∧
  decodeTableWord 16 0xE004 = some (.cmd 0b100#3) ∧
  decodeTableWord 16 0xF000 = none

/-- Decoding the encoding of a well-formed operation gives it back (R66). -/
def Obligations.DecodeOfEncodeIsIdentity : Prop :=
  ∀ i : Instr, i.wf = true → decode (encode i) = .ok i

/-- Encoding what a word decodes to gives the word back, and what it decodes to is well formed (R66). -/
def Obligations.EncodeOfDecodeIsIdentity : Prop :=
  ∀ (w : OpWord) (i : Instr), decode w = .ok i → encode i = w ∧ i.wf = true

/-- An operation word decodes iff it matches a row of the table and passes the range checks, and then to an
operation of that row's mnemonic; every other word is illegal (R56, R61, R62). The word is the spec's own
(D14, log 13). -/
def Obligations.UopWordLegalIffItMatchesARow : Prop :=
  ∀ w : UopWord,
    (∀ r ∈ uopRows, r.matchesWord w = true → r.inRange w = true →
      ∃ i, decodeUop w = .ok i ∧ i.mnemonic = r.mnemonic) ∧
    ((∀ r ∈ uopRows, r.matchesWord w = true → r.inRange w = false) → decodeUop w = .error .illegalUop)

/-- The fixed priority of R53, as sentences and as the four match/mask rows, which are disjoint and cover all
eight event words. -/
def Obligations.EventWordDecodesByPriority : Prop :=
  ∀ e : EvtWord,
    (decodeCommand e = .inc ↔ e.getLsbD 0 = true) ∧
    (decodeCommand e = .dec ↔ e.getLsbD 0 = false ∧ e.getLsbD 1 = true) ∧
    (decodeCommand e = .rst ↔ e.getLsbD 0 = false ∧ e.getLsbD 1 = false ∧ e.getLsbD 2 = true) ∧
    (decodeCommand e = .nop ↔ e = 0b000#3) ∧
    ∀ r ∈ evtRows, (e &&& r.mask = r.bits ↔ decodeCommand e = r.command)

/-- The nibble of a digit decodes to it, and the six codes above 9 are refused (R47; the nibble is the spec's
decision D16). -/
def Obligations.DigitNibbleRoundTrip : Prop :=
  (∀ d : Digit, decodeDigit (encodeDigit d) = .ok d ∧ (encodeDigit d).toNat = d.val) ∧
  ∀ b : BitVec 4, 10 ≤ b.toNat → decodeDigit b = .error .illegalNibble

/-- The ten patterns of R49 and that they are pairwise different. Entries 1 to 8 are the spec's general
knowledge (G1, log 5). -/
def Obligations.SegmentTableIsTheStandardOne : Prop :=
  config.segTable.toList =
    [0x3f#7, 0x06#7, 0x5b#7, 0x4f#7, 0x66#7, 0x6d#7, 0x7d#7, 0x07#7, 0x7f#7, 0x6f#7] ∧
  ∀ i j : Digit, config.segTable[i] = config.segTable[j] → i = j

/-- The expansions of R65 as words, for every legal index and both levels (the spec's own words, D14, log 13). -/
def Obligations.PseudoOperationsExpand : Prop :=
  Pseudo.cntInc.words = [.uop 0x4001#16] ∧ Pseudo.cntDec.words = [.uop 0x40FF#16] ∧
  Pseudo.idle.words = [.uop 0xD007#16] ∧
  (∀ d : Fin ndigits,
    (Pseudo.digInc d).words = [.uop (0x1#4 ++ BitVec.ofNat 4 d ++ 0x01#8)] ∧
    (Pseudo.digDec d).words = [.uop (0x1#4 ++ BitVec.ofNat 4 d ++ 0xFF#8)] ∧
    (Pseudo.segClr d).words = [.uop (0x7#4 ++ BitVec.ofNat 4 d ++ 0x00#8)]) ∧
  ∀ (b : Fin nbtn) (level : Level), (Pseudo.btnPoll b level).words =
    [.uop (0xB#4 ++ BitVec.ofNat 4 b ++ (0b0000000#7 ++ BitVec.ofBool level)),
     .uop (0xC#4 ++ BitVec.ofNat 4 b ++ 0x00#8)]

/-- A zero-digit block, or one whose digits have not seven segments, is refused at construction; every other
is built, and no configuration has zero digits (R115). -/
def Obligations.ZeroDigitsRefusedAtConstruction : Prop :=
  (∀ g, Config.construct 0 g = .error .badConfiguration) ∧
  (∀ n g, g ≠ 7 → Config.construct n g = .error .badConfiguration) ∧
  (∀ n, 1 ≤ n → ∃ c, Config.construct n 7 = .ok c ∧ c.n = n) ∧
  ∀ c : Config, 1 ≤ c.n

/-! ### Reset and the step -/

/-- Every piece of the spec's state at its reset value (R30; the values are the spec's decisions D7 to D10,
log 9 and 10). -/
def Obligations.ResetValues : Prop :=
  State.reset.value = 0 ∧ (∀ d : Fin ndigits, State.reset.digits[d] = 0) ∧
  (∀ b : Fin nbtn, (State.reset.btns[b]).prev = none ∧ (State.reset.btns[b]).cur = none) ∧
  State.reset.dirty = true ∧
  ∀ (d : Fin ndigits) (k : Fin nseg), State.reset.pin d k = false

/-- A step takes the oldest issued word off the queue. An operation word is its row executed; an event word is its
row executed as phase 4 and then phase 5 in the same step, which is `CMD` of that word; an illegal word is
refused (R62). The queue and phase 5 of an event word are the model's choices (log 1 and 14). -/
def Obligations.StepExecutesTheIssuedWord : Prop :=
  ∀ (s : State) (w : OpWord) (rest : List OpWord), s.issued = w :: rest →
    (∀ u i, w = .uop u → decodeUop u = .ok i → step s = exec i { s with issued := rest }) ∧
    (∀ e, w = .evt e → ∃ t, exec (decodeEvt e) { s with issued := rest } = .next t ∧
      step s = .next (t.finish (decodeCommand e)) ∧ step s = exec (.cmd e) { s with issued := rest }) ∧
    (∀ e, decode w = .error e → step s = .refused .illegalUop)

/-- A word placed by `withFetchWord` is what the next step runs: an operation word's row, an event word's row with
phase 5 after it (log 1 and 14). -/
def Obligations.StepRunsTheFetchedWord : Prop :=
  ∀ (s : State) (nbits w : Nat),
    (∀ u i, OpWord.ofTable nbits w = .uop u → decodeTableWord nbits w = some i →
      step (s.withFetchWord nbits w) = exec i s) ∧
    ∀ e, OpWord.ofTable nbits w = .evt e → decodeTableWord nbits w = some (decodeEvt e) ∧
      ∃ t, exec (decodeEvt e) s = .next t ∧
        step (s.withFetchWord nbits w) = .next (t.finish (decodeCommand e))

/-- With no word issued the block polls: a tick with the environment's three levels; or the read has failed, and
the block is stuck in this state for good: no number of steps leaves it (R116, R136; the form of the free input
is the model's, log 2 and 3). -/
def Obligations.StepPollsWhenNothingIsIssued : Prop :=
  ∀ s : State, s.issued = [] →
    (∃ lvl, Config.environment s.draws = some lvl ∧
      step s = exec (.tick lvl) { s with draws := s.draws + 1 }) ∨
    (Config.environment s.draws = none ∧ ∀ k, Sys2Proof.core.run k s = .next s)

/-! ### Digit operations -/

/-- `DIG.ADD`: the floored sum modulo ten, a wrap iff the exact sum leaves `0..9`, nothing else written; an
index out of range is refused (R70). -/
def Obligations.DigAddAddsModuloTen : Prop :=
  ∀ (s : State) (d : Nat) (amount : Int),
    (∀ h : d < ndigits, ∃ (new : Digit) (w : Bool),
      exec (.digAdd d amount) s = .next { s with digits := s.digits.set d new, result := .wrap w } ∧
      (10 : Int) ∣ ((s.digits[d].val : Int) + amount - new.val) ∧
      (w = true ↔ (s.digits[d].val : Int) + amount ≠ new.val) ∧
      (w = true ↔ (s.digits[d].val : Int) + amount < 0 ∨ 9 < (s.digits[d].val : Int) + amount) ∧
      (-128 ≤ amount → amount ≤ 127 →
        decode (.uop (0x1#4 ++ BitVec.ofNat 4 d ++ BitVec.ofInt 8 amount)) = .ok (.digAdd d amount))) ∧
    (ndigits ≤ d → exec (.digAdd d amount) s = .refused .illegalUop)

/-- `DIG.RST`: the digit becomes 0, nothing else written (R73). -/
def Obligations.DigRstClearsOneDigit : Prop :=
  ∀ (s : State) (d : Nat),
    (∀ h : d < ndigits,
      exec (.digRst d) s = .next { s with digits := s.digits.set d 0, result := .none } ∧
      decode (.uop (0x2#4 ++ BitVec.ofNat 4 d ++ 0#8)) = .ok (.digRst d)) ∧
    (ndigits ≤ d → exec (.digRst d) s = .refused .illegalUop)

/-- `DIG.RENDER`: the table's pattern of the digit, nothing written (R74). -/
def Obligations.DigRenderReadsTheTable : Prop :=
  ∀ (s : State) (d : Nat),
    (∀ h : d < ndigits,
      exec (.digRender d) s = .next { s with result := .pattern config.segTable[s.digits[d]] } ∧
      decode (.uop (0x3#4 ++ BitVec.ofNat 4 d ++ 0#8)) = .ok (.digRender d)) ∧
    (ndigits ≤ d → exec (.digRender d) s = .refused .illegalUop)

/-! ### Counter operations -/

/-- `CNT.ADD` on the two digits: the lower one gets the amount; iff it wraps, the higher one gets one unit in
the direction of the amount; its own wrap is dropped; nothing else is written (R76, R77, R78). -/
def Obligations.CntAddRipplesOneUnit : Prop :=
  ∀ (s : State) (amount : Int), ∃ n0 n1 : Digit,
    exec (.cntAdd amount) s = .next { s with digits := #v[n0, n1], result := .none } ∧
    (10 : Int) ∣ ((s.digits[0].val : Int) + amount - n0.val) ∧
    (0 ≤ (s.digits[0].val : Int) + amount → (s.digits[0].val : Int) + amount ≤ 9 → n1 = s.digits[1]) ∧
    (9 < (s.digits[0].val : Int) + amount → (10 : Int) ∣ ((s.digits[1].val : Int) + 1 - n1.val)) ∧
    ((s.digits[0].val : Int) + amount < 0 → (10 : Int) ∣ ((s.digits[1].val : Int) - 1 - n1.val)) ∧
    (-128 ≤ amount → amount ≤ 127 →
      decode (.uop (0x4#4 ++ 0#4 ++ BitVec.ofInt 8 amount)) = .ok (.cntAdd amount))

/-- The ripple on a counter of ANY number of digits is exact addition modulo `10^N` for every amount from -10
to 10 (R79, R82): the single unit is enough as long as the lowest digit crosses at most one multiple of
ten. -/
def Obligations.RippleIsExactForSmallAmounts : Prop :=
  ∀ (ds : List Digit) (amount : Int), -10 ≤ amount → amount ≤ 10 →
    (counterValue (ripple (unit amount) amount ds) : Int) =
      ((counterValue ds : Int) + amount) % (10 : Int) ^ ds.length

/-- `CNT.ADD` is exact modulo 100 for amounts from -10 to 10, and under-carries for 11: value 9 gives 10, not
20 (R79). -/
def Obligations.CntAddExactUpToTenThenUnderCarries : Prop :=
  (∀ (s : State) (amount : Int), -10 ≤ amount → amount ≤ 10 →
    ∃ t, exec (.cntAdd amount) s = .next t ∧ (t.value : Int) = ((s.value : Int) + amount) % 100) ∧
  ∀ s : State, s.value = 9 → ∃ t, exec (.cntAdd 11) s = .next t ∧ t.value = 10

/-- The digits touched: adding one turns the run of 9s at the bottom into 0s and moves the next digit up;
subtracting one turns the run of 0s into 9s and moves the next digit down; digits above are untouched (R82,
R78). -/
def Obligations.RippleTouchesTheLowestRun : Prop :=
  (∀ (k : Nat) (d e : Digit) (ds : List Digit), e.val = d.val + 1 →
    ripple 1 1 (List.replicate k 9 ++ d :: ds) = List.replicate k 0 ++ e :: ds ∧
    ripple (-1) (-1) (List.replicate k 0 ++ e :: ds) = List.replicate k 9 ++ d :: ds) ∧
  ∀ k : Nat, ripple 1 1 (List.replicate k 9) = List.replicate k 0 ∧
    ripple (-1) (-1) (List.replicate k 0) = List.replicate k 9

/-- One up and one down, in either order, restore every digit; so do `10^N` up (R82). -/
def Obligations.CountingUpIsUndoneAndCycles : Prop :=
  ∀ ds : List Digit,
    ripple (-1) (-1) (ripple 1 1 ds) = ds ∧ ripple 1 1 (ripple (-1) (-1) ds) = ds ∧
    (ripple 1 1)^[10 ^ ds.length] ds = ds

/-- `CNT.RST`: every digit 0, nothing else written (R80). -/
def Obligations.CntRstClearsEveryDigit : Prop :=
  ∀ s : State, ∃ ds : Vector Digit ndigits,
    exec .cntRst s = .next { s with digits := ds, result := .none } ∧ (∀ d : Fin ndigits, ds[d] = 0) ∧
    decode (.uop 0x5000#16) = .ok .cntRst

/-- `CNT.RENDER`: the patterns of all digits, element `d` for digit `d`, nothing written (R81; the order is the
spec's decision D11, log 11). -/
def Obligations.CntRenderReadsEveryDigit : Prop :=
  ∀ s : State, ∃ ps : Vector Pattern ndigits,
    exec .cntRender s = .next { s with result := .patterns ps } ∧
    ∀ d : Fin ndigits, ps[d] = config.segTable[s.digits[d]]

/-! ### Segment registers -/

/-- `SEG.SET`: bit 0 to segment a up to bit 6 to segment g of that display, nothing else written; an eighth
bit or an index out of range is refused (R84). -/
def Obligations.SegSetUnpacksThePattern : Prop :=
  ∀ (s : State) (d : Nat) (p : Pattern),
    (∀ h : d < ndigits,
      exec (.segSet d p) s = .next { s with
        segs := s.segs.set d ⟨p.getLsbD 0, p.getLsbD 1, p.getLsbD 2, p.getLsbD 3, p.getLsbD 4,
          p.getLsbD 5, p.getLsbD 6⟩
        result := .none } ∧
      decode (.uop (0x7#4 ++ BitVec.ofNat 4 d ++ (0#1 ++ p))) = .ok (.segSet d p)) ∧
    (∀ idx : BitVec 4, decode (.uop (0x7#4 ++ idx ++ (1#1 ++ p))) = .error .illegalUop) ∧
    (ndigits ≤ d → exec (.segSet d p) s = .refused .illegalUop)

/-- `SEG.GET`: bit `k` of the result is segment `k`, nothing written (R85). -/
def Obligations.SegGetPacksThePattern : Prop :=
  ∀ (s : State) (d : Nat),
    (∀ h : d < ndigits, ∃ p : Pattern,
      exec (.segGet d) s = .next { s with result := .pattern p } ∧
      p.getLsbD 0 = (s.segs[d]).a ∧ p.getLsbD 1 = (s.segs[d]).b ∧ p.getLsbD 2 = (s.segs[d]).c ∧
      p.getLsbD 3 = (s.segs[d]).d ∧ p.getLsbD 4 = (s.segs[d]).e ∧ p.getLsbD 5 = (s.segs[d]).f ∧
      p.getLsbD 6 = (s.segs[d]).g ∧
      decode (.uop (0x8#4 ++ BitVec.ofNat 4 d ++ 0#8)) = .ok (.segGet d)) ∧
    (ndigits ≤ d → exec (.segGet d) s = .refused .illegalUop)

/-- `SEGBIT.SET`: one register of one display, the other six keep their values; an index out of range or a
must-be-zero bit is refused (R86). -/
def Obligations.SegBitSetWritesOneRegister : Prop :=
  ∀ (s : State) (d k : Nat) (v : Bool),
    (∀ (h : d < ndigits) (hk : k < nseg), ∃ m : SegmentMap,
      exec (.segBitSet d k v) s = .next { s with segs := s.segs.set d m, result := .none } ∧
      m.get ⟨k, hk⟩ = v ∧ (∀ j : Fin nseg, j.val ≠ k → m.get j = (s.segs[d]).get j) ∧
      decode (.uop (0x9#4 ++ BitVec.ofNat 4 d ++ (BitVec.ofBool v ++ 0#4 ++ BitVec.ofNat 3 k))) =
        .ok (.segBitSet d k v)) ∧
    (ndigits ≤ d ∨ nseg ≤ k → exec (.segBitSet d k v) s = .refused .illegalUop) ∧
    ∀ (idx z : BitVec 4) (j : BitVec 3), z ≠ 0#4 →
      decode (.uop (0x9#4 ++ idx ++ (BitVec.ofBool v ++ z ++ j))) = .error .illegalUop

/-- `SEGBIT.GET`: the register's value, nothing written; an index out of range or a must-be-zero bit is
refused (R87). -/
def Obligations.SegBitGetReadsOneRegister : Prop :=
  ∀ (s : State) (d k : Nat),
    (∀ (h : d < ndigits) (hk : k < nseg),
      exec (.segBitGet d k) s = .next { s with result := .segment ((s.segs[d]).get ⟨k, hk⟩) } ∧
      decode (.uop (0xA#4 ++ BitVec.ofNat 4 d ++ (0#5 ++ BitVec.ofNat 3 k))) = .ok (.segBitGet d k)) ∧
    (ndigits ≤ d ∨ nseg ≤ k → exec (.segBitGet d k) s = .refused .illegalUop) ∧
    ∀ (idx : BitVec 4) (z : BitVec 5) (j : BitVec 3), z ≠ 0#5 →
      decode (.uop (0xA#4 ++ idx ++ (z ++ j))) = .error .illegalUop

/-- Setting a display and reading it back gives the pattern, whole and segment by segment, for all 128
patterns; writing back what was read changes no register (R88). -/
def Obligations.SegmentRoundTrip : Prop :=
  ∀ (s : State) (d : Nat), d < ndigits →
    (∀ p : Pattern, ∃ t, exec (.segSet d p) s = .next t ∧
      exec (.segGet d) t = .next { t with result := .pattern p } ∧
      ∀ k, k < nseg → exec (.segBitGet d k) t = .next { t with result := .segment (p.getLsbD k) }) ∧
    ∃ p : Pattern, exec (.segGet d) s = .next { s with result := .pattern p } ∧
      exec (.segSet d p) s = .next { s with result := .none }

/-! ### Edge detectors -/

/-- `BTN.SAMPLE`: `prev` takes the whole of `cur`, `cur` the level, which is returned; nothing else is written;
an index out of range or a must-be-zero bit is refused (R92). -/
def Obligations.BtnSampleShiftsTheLatches : Prop :=
  ∀ (s : State) (b : Nat) (level : Level),
    (∀ h : b < nbtn,
      exec (.btnSample b level) s = .next { s with
        btns := s.btns.set b ⟨(s.btns[b]).cur, some level⟩
        result := .level level } ∧
      decode (.uop (0xB#4 ++ BitVec.ofNat 4 b ++ (0#7 ++ BitVec.ofBool level))) =
        .ok (.btnSample b level)) ∧
    (nbtn ≤ b → exec (.btnSample b level) s = .refused .illegalUop) ∧
    ∀ (idx : BitVec 4) (z : BitVec 7), z ≠ 0#7 →
      decode (.uop (0xB#4 ++ idx ++ (z ++ BitVec.ofBool level))) = .error .illegalUop

/-- `BTN.CHANGED`, every row of R93's table: refused without a sample, `false` with one sample only, else
whether the two samples differ; `prev` becomes `cur` and nothing else is written. The first two rows are the
spec's decisions D5 and D4 (log 8 and 7). -/
def Obligations.BtnChangedComparesAndConsumes : Prop :=
  ∀ (s : State) (b : Nat),
    (∀ h : b < nbtn,
      ((s.btns[b]).cur = none → exec (.btnChanged b) s = .refused .changedBeforeSample) ∧
      (∀ c, (s.btns[b]).prev = none → (s.btns[b]).cur = some c →
        exec (.btnChanged b) s = .next { s with
          btns := s.btns.set b ⟨some c, some c⟩
          result := .changed false }) ∧
      ∀ p c, (s.btns[b]).prev = some p → (s.btns[b]).cur = some c →
        exec (.btnChanged b) s = .next { s with
          btns := s.btns.set b ⟨some c, some c⟩
          result := .changed (xor p c) }) ∧
    (nbtn ≤ b → exec (.btnChanged b) s = .refused .illegalUop)

/-- The change is consumed: a second `BTN.CHANGED` returns `false` and writes nothing, from any state in which
the first is not refused (R95). -/
def Obligations.SecondChangedIsFalse : Prop :=
  ∀ (s t : State) (b : Nat), exec (.btnChanged b) s = .next t →
    exec (.btnChanged b) t = .next { t with result := .changed false }

/-- `BTN.POLL`: sample, then changed. It is never refused, both latches hold the level, a falling edge is a
change from released to pressed and a rising edge one from pressed to released; a tick does the same to the
latches of every button (R97, R98; with no earlier sample no edge is D4, log 7). -/
def Obligations.PollReportsTheEdge : Prop :=
  ∀ (s : State) (b : Nat) (h : b < nbtn) (level : Level), ∃ (t u : State) (r : Bool),
    exec (.btnSample b level) s = .next t ∧ exec (.btnChanged b) t = .next u ∧ u.result = .changed r ∧
    u.btns[b] = ⟨some level, some level⟩ ∧
    (pollResult r level = some .falling ↔ (s.btns[b]).cur = some released ∧ level = pressed) ∧
    (pollResult r level = some .rising ↔ (s.btns[b]).cur = some pressed ∧ level = released) ∧
    ∀ (lvl : LvlWord) (v : State), lvl.getLsbD b = level → exec (.tick lvl) s = .next v →
      v.btns[b] = u.btns[b]

/-- Two samples of one level with no `BTN.CHANGED` between lose the edge (R99, R138). -/
def Obligations.SecondSampleLosesTheEdge : Prop :=
  ∀ (s : State) (b : Nat) (level : Level), b < nbtn → ∃ t u v : State,
    exec (.btnSample b level) s = .next t ∧ exec (.btnSample b level) t = .next u ∧
    exec (.btnChanged b) u = .next v ∧ v.result = .changed false

/-! ### Commands, `CMD`, `TICK`, `NOP` -/

/-- `EVT.INC`: the digits of `CNT.ADD 1`, so the value goes up by one modulo 100; `dirty` is set; nothing else
is written; every event word with bit 0 set decodes to it (R104). That the row alone is phase 4, which sets the
flag and leaves the render to the step, is the model's choice (log 14). -/
def Obligations.EvtIncCountsUp : Prop :=
  (∀ (s : State) (dec rst : Bool), ∃ ds : Vector Digit ndigits,
    exec (.evtInc dec rst) s = .next { s with digits := ds, dirty := true, result := .none } ∧
    exec (.cntAdd 1) s = .next { s with digits := ds, result := .none } ∧
    counterValue ds.toList = (s.value + 1) % 100) ∧
  ∀ e : EvtWord, e &&& 0b001#3 = 0b001#3 → decode (.evt e) = .ok (.evtInc (e.getLsbD 1) (e.getLsbD 2))

/-- `EVT.DEC`: the digits of `CNT.ADD -1`, so the value goes down by one modulo 100; `dirty` is set; nothing
else is written (R105). That the row alone is phase 4 is the model's choice (log 14). -/
def Obligations.EvtDecCountsDown : Prop :=
  (∀ (s : State) (rst : Bool), ∃ ds : Vector Digit ndigits,
    exec (.evtDec rst) s = .next { s with digits := ds, dirty := true, result := .none } ∧
    exec (.cntAdd (-1)) s = .next { s with digits := ds, result := .none } ∧
    counterValue ds.toList = (s.value + 99) % 100) ∧
  ∀ e : EvtWord, e &&& 0b011#3 = 0b010#3 → decode (.evt e) = .ok (.evtDec (e.getLsbD 2))

/-- `EVT.RST`: every digit 0 and `dirty` set, also when the counter is already 0; the latches and the segment
registers are not touched (R106). That the row alone is phase 4 is the model's choice (log 14). -/
def Obligations.EvtRstClearsTheCounter : Prop :=
  (∀ s : State, ∃ ds : Vector Digit ndigits,
    exec .evtRst s = .next { s with digits := ds, dirty := true, result := .none } ∧
    ∀ d : Fin ndigits, ds[d] = 0) ∧
  ∀ e : EvtWord, e &&& 0b111#3 = 0b100#3 → decode (.evt e) = .ok .evtRst

/-- `EVT.NOP`: nothing is written, `dirty` keeps its value (R108). That the row alone is phase 4, with no render
where one is due, is the model's choice (log 14). -/
def Obligations.EvtNopWritesNothing : Prop :=
  (∀ s : State, exec .evtNop s = .next { s with result := .none }) ∧
  ∀ e : EvtWord, e &&& 0b111#3 = 0b000#3 → decode (.evt e) = .ok .evtNop

/-- `NOP`: the all-zero word reads and writes nothing (R110, the spec's own operation, D14). -/
def Obligations.NopWritesNothing : Prop :=
  (∀ s : State, exec .nop s = .next { s with result := .none }) ∧ decode (.uop 0x0000#16) = .ok .nop

/-- `CMD`: the digits of the command the event word decodes to; a render, showing the new digits, iff the flag
was set or the command is not `NOP`; the flag ends clear; the latches are not touched (R109, R107, R111; the
operation is the spec's own, D14). -/
def Obligations.CmdExecutesThenRenders : Prop :=
  ∀ (s : State) (evt : EvtWord), ∃ t u : State,
    exec (.cmd evt) s = .next t ∧ exec (decodeEvt evt) s = .next u ∧
    t.digits = u.digits ∧ t.dirty = false ∧
    t.result = .executed (decodeCommand evt) (s.dirty || decide (decodeCommand evt ≠ .nop)) ∧
    (s.dirty = true ∨ decodeCommand evt ≠ .nop → ShowsCount t) ∧
    (s.dirty = false → decodeCommand evt = .nop → t.segs = s.segs) ∧
    t.btns = s.btns ∧ t.issued = s.issued ∧ t.draws = s.draws

/-- `TICK`: it answers a next state, in which both latches of every button hold its level; and it is `CMD` with
the word of the press edges on the state with those latches (R100, R101, R102, R103; that the press edge is
the event and the first sample none are the spec's decisions D3 and D4, log 6 and 7). -/
def Obligations.TickIsCmdOfThePressEdges : Prop :=
  ∀ (s : State) (lvl : LvlWord),
    (∃ t, exec (.tick lvl) s = .next t ∧ LatchesHold lvl t) ∧
    ∀ btns : Vector EdgeDetector nbtn,
      (∀ b : Fin nbtn, btns[b] = ⟨some (lvl.getLsbD b.val), some (lvl.getLsbD b.val)⟩) →
      exec (.tick lvl) s =
        exec (.cmd (BitVec.ofBool (pressEdge s lvl 2) ++ BitVec.ofBool (pressEdge s lvl 1) ++
          BitVec.ofBool (pressEdge s lvl 0))) { s with btns := btns }

/-- At most one command per tick, by priority among the press edges: `INC` whenever increment has one, `RST`
only when it alone has one, and none without one (R103, R102; D3, log 6). -/
def Obligations.TickCommandIsTheFirstPressEdge : Prop :=
  ∀ (s : State) (lvl : LvlWord), ∃ (t : State) (c : Command) (r : Bool),
    exec (.tick lvl) s = .next t ∧ t.result = .executed c r ∧
    (c = .inc ↔ pressEdge s lvl 0 = true) ∧
    (c = .dec ↔ pressEdge s lvl 0 = false ∧ pressEdge s lvl 1 = true) ∧
    (c = .rst ↔ pressEdge s lvl 0 = false ∧ pressEdge s lvl 1 = false ∧ pressEdge s lvl 2 = true) ∧
    (c = .nop ↔ ∀ b : Fin nbtn, pressEdge s lvl b = false)

/-- A tick with the levels of the tick before gives `(NOP, false)` and changes no state: a held button does not
repeat, and the presses that lost the arbitration are dropped (R112, R142, R100). -/
def Obligations.RepeatedTickDoesNothing : Prop :=
  ∀ (s : State) (lvl : LvlWord), ∃ t,
    exec (.tick lvl) s = .next t ∧
    exec (.tick lvl) t = .next { t with result := .executed .nop false }

/-- The first tick after reset, with any levels: no command, a render of the digits; from the reset state the
displays then read 00, entry 0 of the table (R132, R134; the values are D4, D7 and D9, log 7 and 9). -/
def Obligations.FirstTickRendersOnly : Prop :=
  (∀ (s : State) (lvl : LvlWord), (∀ b : Fin nbtn, (s.btns[b]).cur = none) → s.dirty = true →
    ∃ t, exec (.tick lvl) s = .next t ∧ t.result = .executed .nop true ∧ t.digits = s.digits ∧
      SettledAt lvl t) ∧
  ∀ lvl : LvlWord, ∃ t, exec (.tick lvl) State.reset = .next t ∧
    ∀ d : Fin ndigits, (t.segs[d]).pack = 0x3f#7

/-- Bounce is not filtered: increment, then decrement, read pressed, released, pressed on three ticks (the
others released) counts twice (R139; D3, log 6). -/
def Obligations.BounceCountsTwice : Prop :=
  (∀ s : State, (s.btns[0]).cur = some released → ∃ t u v : State,
    exec (.tick 0b110#3) s = .next t ∧ exec (.tick 0b111#3) t = .next u ∧
    exec (.tick 0b110#3) u = .next v ∧ v.value = (s.value + 2) % 100) ∧
  ∀ s : State, (s.btns[1]).cur = some released → ∃ t u v : State,
    exec (.tick 0b101#3) s = .next t ∧ exec (.tick 0b111#3) t = .next u ∧
    exec (.tick 0b101#3) u = .next v ∧ v.value = (s.value + 98) % 100

/-! ### Rules of the whole machine -/

/-- Every operation whose indices name state that exists, `BTN.CHANGED` after a sample, answers a next state
(R114): none of them can fail. -/
def Obligations.LegalOperationsComplete : Prop :=
  ∀ (i : Instr) (s : State), indicesLegal i = true → changedAfterSample i s →
    ∃ t, exec i s = .next t

/-- An operation never faults, and is refused for two reasons only: an index out of range, or `BTN.CHANGED`
before any sample of its button (R114, R117; the refusals are the spec's decisions D17 and D5, log 16
and 8). -/
def Obligations.RefusalsAreTheTwoReasons : Prop :=
  ∀ (i : Instr) (s : State),
    (∃ t, exec i s = .next t) ∨
    (exec i s = .refused .illegalUop ∧ indicesLegal i = false) ∨
    (exec i s = .refused .changedBeforeSample ∧ ¬ changedAfterSample i s)

/-- Only the digit and counter operations that write digits, and the commands, change a digit: no segment and
no button operation does (R18). -/
def Obligations.OnlyCountingWritesDigits : Prop :=
  ∀ (i : Instr) (s t : State), exec i s = .next t → t.digits ≠ s.digits →
    (∃ d a, i = .digAdd d a) ∨ (∃ d, i = .digRst d) ∨ (∃ a, i = .cntAdd a) ∨ i = .cntRst ∨
    (∃ dec rst, i = .evtInc dec rst) ∨ (∃ rst, i = .evtDec rst) ∨ i = .evtRst ∨
    (∃ lvl, i = .tick lvl) ∨ ∃ evt, i = .cmd evt

/-- Only `SEG.SET`, `SEGBIT.SET` and a render change a segment register, so an output: the two write one
display, the render comes with `rendered = true` (R20, R90). -/
def Obligations.OnlySegmentWritesChangeOutputs : Prop :=
  ∀ (i : Instr) (s t : State) (d : Fin ndigits) (k : Fin nseg), exec i s = .next t →
    t.pin d k ≠ s.pin d k →
    (∃ p, i = .segSet d.val p) ∨ (∃ v, i = .segBitSet d.val k.val v ∧ t.pin d k = v) ∨
    (((∃ lvl, i = .tick lvl) ∨ ∃ evt, i = .cmd evt) ∧ ∃ c, t.result = .executed c true)

/-- Only `BTN.SAMPLE` and `BTN.CHANGED` of a button, and a tick, change its latches; `BTN.CHANGED` leaves `cur`
(R23, R91). -/
def Obligations.OnlySamplingWritesLatches : Prop :=
  ∀ (i : Instr) (s t : State) (b : Fin nbtn), exec i s = .next t → t.btns[b] ≠ s.btns[b] →
    (∃ l, i = .btnSample b.val l) ∨ (i = .btnChanged b.val ∧ (t.btns[b]).cur = (s.btns[b]).cur) ∨
    ∃ lvl, i = .tick lvl

/-- The flag is set by an executed command other than `NOP` and cleared by the render phase of `TICK` and `CMD`
only (R24). That an `EVT` row by itself, phase 4 without the phase 5 that the step adds, leaves the flag set is the
model's choice (log 14); `StepNeverLeavesARenderDue` is R24 of whole steps. -/
def Obligations.DirtyIsSetByCommandsClearedByRender : Prop :=
  ∀ (i : Instr) (s t : State), exec i s = .next t →
    (s.dirty = false → t.dirty = true →
      (∃ dec rst, i = .evtInc dec rst) ∨ (∃ rst, i = .evtDec rst) ∨ i = .evtRst) ∧
    (s.dirty = true → t.dirty = false → (∃ lvl, i = .tick lvl) ∨ ∃ evt, i = .cmd evt)

/-- No operation touches the words still to come or the environment's answers: they are the step's alone
(R29, log 1 and 2). -/
def Obligations.OperationsLeaveTheInputsAlone : Prop :=
  ∀ (i : Instr) (s t : State), exec i s = .next t → t.issued = s.issued ∧ t.draws = s.draws

/-- The segment registers never flow back: whatever they hold, an operation gives the same digits, latches and
flag, or is refused alike (R146, R83). -/
def Obligations.SegmentsNeverFlowBack : Prop :=
  ∀ (i : Instr) (s : State) (segs : Vector SegmentMap ndigits),
    (∀ t, exec i s = .next t → ∃ t', exec i { s with segs := segs } = .next t' ∧
      t'.digits = t.digits ∧ t'.btns = t.btns ∧ t'.dirty = t.dirty) ∧
    ∀ r, exec i s = .refused r → exec i { s with segs := segs } = .refused r

/-- At reset no latch holds a sample, so the legal-latch invariant holds, and nothing but ticks is issued with
a render due (R30, R22, R32). -/
def Obligations.ResetMeetsTheInvariants : Prop :=
  LatchesLegal State.reset ∧ TicksOnly State.reset ∧ ShowsCountOrDirty State.reset

/-- Every step, whatever is issued, keeps the latches legal, and no detector ever goes back to
`UNINITIALIZED` (R22). -/
def Obligations.StepKeepsLatchesLegal : Prop :=
  ∀ s t : State, LatchesLegal s → step s = .next t →
    LatchesLegal t ∧
    ∀ b : Fin nbtn, (s.btns[b]).state = .sampled → (t.btns[b]).state = .sampled

/-- In normal operation every step completes and ends settled: the flag clear, both latches of every button at the
level presented to that very tick (by the tick word taken off the queue, or by the environment's answer), every
display showing its digit (R32); or the environment's read has failed and nothing changes (log 3). The premise
holds again. -/
def Obligations.TickingStepsEndSettled : Prop :=
  ∀ s : State, TicksOnly s → ShowsCountOrDirty s → ∃ t, step s = .next t ∧
    (∀ lvl rest, s.issued = encode (.tick lvl) :: rest → SettledAt lvl t) ∧
    (s.issued = [] →
      (∃ lvl, Config.environment s.draws = some lvl ∧ SettledAt lvl t) ∨
      (Config.environment s.draws = none ∧ t = s)) ∧
    TicksOnly t ∧ ShowsCountOrDirty t

/-- Along any sequence of ticks the parallel evaluation of the three changes and the software chain that stops
at the first match agree on everything but `prev` latches: no output and no later result can differ (R102,
D6). -/
def Obligations.SoftwareChainIsUnobservable : Prop :=
  ∀ (lvls : List LvlWord) (s : State), ∃ t : State,
    lvls.foldl (fun o lvl => match o with
      | .next u => exec (.tick lvl) u
      | stopped => stopped) (.next s : Host.Outcome State Fault Refusal) = .next t ∧
    AgreeButPrev t (lvls.foldl (fun u lvl => softwareTick lvl u) s)

/-- Only a command executed by phases 3 to 5 sets the flag, and phase 5 clears it again: no step leaves a render
due that found none due, whatever is issued; and a step that ends a due render has rendered, so that every display
shows its digit (R24, R107). That an issued event word runs through phase 5 is the model's choice (log 14). -/
def Obligations.StepNeverLeavesARenderDue : Prop :=
  ∀ s t : State, step s = .next t →
    (s.dirty = false → t.dirty = false) ∧
    (s.dirty = true → t.dirty = false → ShowsCount t ∧ ∃ c, t.result = .executed c true)
end

