-- ==== Sys2Proof/Laws/Decode.lean ====
section
/-! SUPPORT. The fields of a packed word, and the table's rows against each other (R55, R56). -/

namespace Sys2Proof

theorem opField_pack (op idx : BitVec 4) (imm : BitVec 8) : opField (packUop op idx imm) = op := by
  ext i hi
  simp [opField, packUop, BitVec.getElem_extractLsb']
  grind

theorem idxField_pack (op idx : BitVec 4) (imm : BitVec 8) : idxField (packUop op idx imm) = idx := by
  ext i hi
  simp [idxField, packUop, BitVec.getElem_extractLsb']
  grind

theorem immField_pack (op idx : BitVec 4) (imm : BitVec 8) : immField (packUop op idx imm) = imm := by
  ext i hi
  simp [immField, packUop, BitVec.getElem_extractLsb']
  grind

/-- A word is its three fields. -/
theorem packUop_fields (w : UopWord) : packUop (opField w) (idxField w) (immField w) = w := by
  ext i hi
  simp [packUop, opField, idxField, immField]
  grind

/-- A packed word says its three fields. -/
theorem packUop_inj (op op' idx idx' : BitVec 4) (imm imm' : BitVec 8) :
    packUop op idx imm = packUop op' idx' imm' ↔ op = op' ∧ idx = idx' ∧ imm = imm' := by
  constructor
  · intro h
    have ho := congrArg opField h
    have hi := congrArg idxField h
    have hm := congrArg immField h
    simp only [opField_pack, idxField_pack, immField_pack] at ho hi hm
    exact ⟨ho, hi, hm⟩
  · rintro ⟨rfl, rfl, rfl⟩
    rfl

theorem append_and {m n : Nat} (a a' : BitVec m) (b b' : BitVec n) :
    (a ++ b) &&& (a' ++ b') = (a &&& a') ++ (b &&& b') := by
  ext i hi
  by_cases h : i < n <;> simp [BitVec.getElem_append, h]

/-- A mask acts field by field (R56). -/
theorem packUop_and (op m1 idx m2 : BitVec 4) (imm m3 : BitVec 8) :
    packUop op idx imm &&& packUop m1 m2 m3 = packUop (op &&& m1) (idx &&& m2) (imm &&& m3) :=
  (append_and (op ++ idx) (m1 ++ m2) imm m3).trans
    (congrArg (· ++ (imm &&& m3)) (append_and op m1 idx m2))

/-- Matching a row, field by field. -/
theorem matchesWord_pack (r : UopRow) (op idx m1 m2 b1 b2 : BitVec 4) (imm m3 b3 : BitVec 8)
    (hm : r.mask = packUop m1 m2 m3) (hb : r.bits = packUop b1 b2 b3) :
    r.matchesWord (packUop op idx imm) = true ↔
      op &&& m1 = b1 ∧ idx &&& m2 = b2 ∧ imm &&& m3 = b3 := by
  simp only [UopRow.matchesWord, hm, hb, packUop_and, beq_iff_eq, packUop_inj]

/-- The decoder reads the fields of a packed word. -/
theorem decodeUop_pack (op idx : BitVec 4) (imm : BitVec 8) :
    decodeUop (packUop op idx imm) = decodeFields op idx imm := by
  simp only [decodeUop, opField_pack, idxField_pack, immField_pack]

/-- A word is accepted exactly when it has no stray bit and its operands are in range. -/
theorem acceptUop_ok (m : Bool) (i j : Instr) :
    acceptUop m i = .ok j ↔ m = true ∧ i.wf = true ∧ j = i := by
  cases m <;> cases h : i.wf <;> simp [acceptUop, h, eq_comm]

/-- No word matches two rows of R56: the fifteen rows are pairwise disjoint. -/
theorem uopRows_disjoint :
    uopRows.Pairwise fun r q => (r.bits ^^^ q.bits) &&& (r.mask &&& q.mask) ≠ 0#16 := by decide

/-- The rows are those of the table, one for each mnemonic. -/
theorem uopRows_mnemonics_distinct : (uopRows.map UopRow.mnemonic).Nodup := by decide

end Sys2Proof
end

