-- ==== Sys2Proof/Laws/State.lean ====
section
/-! SUPPORT. One lemma per field per update of the state, true by `rfl`, so that no proof unfolds a record
update. -/

namespace Sys2Proof.Machine

/-! ### The parameters of this hardware (R7) -/

theorem ndigits_eq : ndigits = 2 := rfl
@[simp] theorem config_firstSampleEdge : config.firstSampleEdge = false := rfl
@[simp] theorem config_eventEdge : config.eventEdge = .press := rfl
@[simp] theorem config_renderOrder : config.renderOrder = .leastSignificantFirst := rfl
@[simp] theorem arrange_eq {α : Type} {n : Nat} (o : RenderOrder) (v : Vector α n) : arrange o v = v := by
  cases o
  rfl

/-! ### Fields and updates -/

variable (s : State)

@[simp] theorem State.ret_digits (r : Result) : (s.ret r).digits = s.digits := rfl
@[simp] theorem State.ret_segs (r : Result) : (s.ret r).segs = s.segs := rfl
@[simp] theorem State.ret_btns (r : Result) : (s.ret r).btns = s.btns := rfl
@[simp] theorem State.ret_dirty (r : Result) : (s.ret r).dirty = s.dirty := rfl
@[simp] theorem State.ret_result (r : Result) : (s.ret r).result = r := rfl
@[simp] theorem State.ret_issued (r : Result) : (s.ret r).issued = s.issued := rfl
@[simp] theorem State.ret_draws (r : Result) : (s.ret r).draws = s.draws := rfl

@[simp] theorem State.writeDigit_digits (d : Fin ndigits) (v : Digit) : (s.writeDigit d v).digits = s.digits.set d.val v d.isLt := rfl
@[simp] theorem State.writeDigit_segs (d : Fin ndigits) (v : Digit) : (s.writeDigit d v).segs = s.segs := rfl
@[simp] theorem State.writeDigit_btns (d : Fin ndigits) (v : Digit) : (s.writeDigit d v).btns = s.btns := rfl
@[simp] theorem State.writeDigit_dirty (d : Fin ndigits) (v : Digit) : (s.writeDigit d v).dirty = s.dirty := rfl
@[simp] theorem State.writeDigit_result (d : Fin ndigits) (v : Digit) : (s.writeDigit d v).result = s.result := rfl
@[simp] theorem State.writeDigit_issued (d : Fin ndigits) (v : Digit) : (s.writeDigit d v).issued = s.issued := rfl
@[simp] theorem State.writeDigit_draws (d : Fin ndigits) (v : Digit) : (s.writeDigit d v).draws = s.draws := rfl

@[simp] theorem State.writeSegs_digits (d : Fin ndigits) (m : SegmentMap) : (s.writeSegs d m).digits = s.digits := rfl
@[simp] theorem State.writeSegs_segs (d : Fin ndigits) (m : SegmentMap) : (s.writeSegs d m).segs = s.segs.set d.val m d.isLt := rfl
@[simp] theorem State.writeSegs_btns (d : Fin ndigits) (m : SegmentMap) : (s.writeSegs d m).btns = s.btns := rfl
@[simp] theorem State.writeSegs_dirty (d : Fin ndigits) (m : SegmentMap) : (s.writeSegs d m).dirty = s.dirty := rfl
@[simp] theorem State.writeSegs_result (d : Fin ndigits) (m : SegmentMap) : (s.writeSegs d m).result = s.result := rfl
@[simp] theorem State.writeSegs_issued (d : Fin ndigits) (m : SegmentMap) : (s.writeSegs d m).issued = s.issued := rfl
@[simp] theorem State.writeSegs_draws (d : Fin ndigits) (m : SegmentMap) : (s.writeSegs d m).draws = s.draws := rfl

@[simp] theorem State.writeBtn_digits (b : Fin nbtn) (e : EdgeDetector) : (s.writeBtn b e).digits = s.digits := rfl
@[simp] theorem State.writeBtn_segs (b : Fin nbtn) (e : EdgeDetector) : (s.writeBtn b e).segs = s.segs := rfl
@[simp] theorem State.writeBtn_btns (b : Fin nbtn) (e : EdgeDetector) : (s.writeBtn b e).btns = s.btns.set b.val e b.isLt := rfl
@[simp] theorem State.writeBtn_dirty (b : Fin nbtn) (e : EdgeDetector) : (s.writeBtn b e).dirty = s.dirty := rfl
@[simp] theorem State.writeBtn_result (b : Fin nbtn) (e : EdgeDetector) : (s.writeBtn b e).result = s.result := rfl
@[simp] theorem State.writeBtn_issued (b : Fin nbtn) (e : EdgeDetector) : (s.writeBtn b e).issued = s.issued := rfl
@[simp] theorem State.writeBtn_draws (b : Fin nbtn) (e : EdgeDetector) : (s.writeBtn b e).draws = s.draws := rfl

@[simp] theorem State.setDirty_digits : (s.setDirty).digits = s.digits := rfl
@[simp] theorem State.setDirty_segs : (s.setDirty).segs = s.segs := rfl
@[simp] theorem State.setDirty_btns : (s.setDirty).btns = s.btns := rfl
@[simp] theorem State.setDirty_dirty : (s.setDirty).dirty = true := rfl
@[simp] theorem State.setDirty_result : (s.setDirty).result = s.result := rfl
@[simp] theorem State.setDirty_issued : (s.setDirty).issued = s.issued := rfl
@[simp] theorem State.setDirty_draws : (s.setDirty).draws = s.draws := rfl

@[simp] theorem State.clearDirty_digits : (s.clearDirty).digits = s.digits := rfl
@[simp] theorem State.clearDirty_segs : (s.clearDirty).segs = s.segs := rfl
@[simp] theorem State.clearDirty_btns : (s.clearDirty).btns = s.btns := rfl
@[simp] theorem State.clearDirty_dirty : (s.clearDirty).dirty = false := rfl
@[simp] theorem State.clearDirty_result : (s.clearDirty).result = s.result := rfl
@[simp] theorem State.clearDirty_issued : (s.clearDirty).issued = s.issued := rfl
@[simp] theorem State.clearDirty_draws : (s.clearDirty).draws = s.draws := rfl

@[simp] theorem State.cntAdd_digits (a : Int) : (s.cntAdd a).digits = addCounter a s.digits := rfl
@[simp] theorem State.cntAdd_segs (a : Int) : (s.cntAdd a).segs = s.segs := rfl
@[simp] theorem State.cntAdd_btns (a : Int) : (s.cntAdd a).btns = s.btns := rfl
@[simp] theorem State.cntAdd_dirty (a : Int) : (s.cntAdd a).dirty = s.dirty := rfl
@[simp] theorem State.cntAdd_result (a : Int) : (s.cntAdd a).result = s.result := rfl
@[simp] theorem State.cntAdd_issued (a : Int) : (s.cntAdd a).issued = s.issued := rfl
@[simp] theorem State.cntAdd_draws (a : Int) : (s.cntAdd a).draws = s.draws := rfl

@[simp] theorem State.cntRst_digits : (s.cntRst).digits = Vector.replicate ndigits 0 := rfl
@[simp] theorem State.cntRst_segs : (s.cntRst).segs = s.segs := rfl
@[simp] theorem State.cntRst_btns : (s.cntRst).btns = s.btns := rfl
@[simp] theorem State.cntRst_dirty : (s.cntRst).dirty = s.dirty := rfl
@[simp] theorem State.cntRst_result : (s.cntRst).result = s.result := rfl
@[simp] theorem State.cntRst_issued : (s.cntRst).issued = s.issued := rfl
@[simp] theorem State.cntRst_draws : (s.cntRst).draws = s.draws := rfl

@[simp] theorem State.renderAll_digits : (s.renderAll).digits = s.digits := rfl
@[simp] theorem State.renderAll_btns : (s.renderAll).btns = s.btns := rfl
@[simp] theorem State.renderAll_dirty : (s.renderAll).dirty = s.dirty := rfl
@[simp] theorem State.renderAll_result : (s.renderAll).result = s.result := rfl
@[simp] theorem State.renderAll_issued : (s.renderAll).issued = s.issued := rfl
@[simp] theorem State.renderAll_draws : (s.renderAll).draws = s.draws := rfl

@[simp] theorem State.withFetchWord_digits (n w : Nat) : (s.withFetchWord n w).digits = s.digits := rfl
@[simp] theorem State.withFetchWord_segs (n w : Nat) : (s.withFetchWord n w).segs = s.segs := rfl
@[simp] theorem State.withFetchWord_btns (n w : Nat) : (s.withFetchWord n w).btns = s.btns := rfl
@[simp] theorem State.withFetchWord_dirty (n w : Nat) : (s.withFetchWord n w).dirty = s.dirty := rfl
@[simp] theorem State.withFetchWord_result (n w : Nat) : (s.withFetchWord n w).result = s.result := rfl
@[simp] theorem State.withFetchWord_issued (n w : Nat) : (s.withFetchWord n w).issued = OpWord.ofTable n w :: s.issued := rfl
@[simp] theorem State.withFetchWord_draws (n w : Nat) : (s.withFetchWord n w).draws = s.draws := rfl

@[simp] theorem State.renderAll_segs_get (d : Nat) (h : d < ndigits) :
    (s.renderAll).segs[d] = SegmentMap.unpack (s.digRender ⟨d, h⟩) := by
  simp [State.renderAll]

@[simp] theorem EdgeDetector.sample_prev (e : EdgeDetector) (l : Level) : (e.sample l).prev = e.cur := rfl
@[simp] theorem EdgeDetector.sample_cur (e : EdgeDetector) (l : Level) : (e.sample l).cur = some l := rfl
@[simp] theorem EdgeDetector.consume_prev (e : EdgeDetector) : e.consume.prev = e.cur := rfl
@[simp] theorem EdgeDetector.consume_cur (e : EdgeDetector) : e.consume.cur = e.cur := rfl

/-- A tuple of two registers is its two members: `N = 2`. -/
theorem vector_two {α : Type} (v : Vector α ndigits) : v = #v[v[0], v[1]] := by
  ext i h
  match i, h with
  | 0, _ => rfl
  | 1, _ => rfl

/-- A tuple of three registers is its three members: `NBTN = 3`. -/
theorem vector_three {α : Type} (v : Vector α nbtn) : v = #v[v[0], v[1], v[2]] := by
  ext i h
  match i, h with
  | 0, _ => rfl
  | 1, _ => rfl
  | 2, _ => rfl

end Sys2Proof.Machine
end

