-- ==== Sys2Proof/Laws/Digit.lean ====
section
/-! SUPPORT. What the decimal sum, its wrap and the ripple do (R10, R70, R76), said once. -/

namespace Sys2Proof.Machine

theorem fmod10_val (x : Int) : ((fmod10 x).val : Int) = x % 10 := by
  show ((x % 10).toNat : Int) = x % 10
  omega

/-- `fmod10 x` is the only digit that differs from `x` by a multiple of ten (R10). -/
theorem fmod10_eq_of_dvd (x : Int) (r : Digit) (h : (10 : Int) ∣ x - r.val) : fmod10 x = r := by
  apply Fin.ext
  have := fmod10_val x
  omega

theorem fmod10_of_range (x : Int) (h0 : 0 ≤ x) (h9 : x ≤ 9) : ((fmod10 x).val : Int) = x := by
  rw [fmod10_val]
  omega

/-- A wrap is reported exactly when the exact sum leaves `0..9` (R71). -/
theorem didWrap_iff (old : Digit) (amount : Int) :
    didWrap old amount = true ↔ (old.val : Int) + amount < 0 ∨ 9 < (old.val : Int) + amount := by
  simp only [didWrap, decide_eq_true_eq, fmod10_val, digitSum]
  omega

theorem ripple_cons_stop (u a : Int) (d : Digit) (ds : List Digit) (h : didWrap d a = false) :
    ripple u a (d :: ds) = fmod10 (digitSum d a) :: ds := by
  simp [ripple, addDigit, h]

theorem ripple_cons_wrap (u a : Int) (d : Digit) (ds : List Digit) (h : didWrap d a = true) :
    ripple u a (d :: ds) = fmod10 (digitSum d a) :: ripple u u ds := by
  simp [ripple, addDigit, h]

@[simp] theorem addCounter_toList (a : Int) {n : Nat} (ds : Vector Digit n) :
    (addCounter a ds).toList = ripple (unit a) a ds.toList := by
  simp [addCounter, Vector.toList]

/-- `CNT.ADD` on a counter of two digits: the higher one gets the ripple unit iff the lower one wraps. -/
theorem addCounter_pair (a : Int) (d0 d1 : Digit) :
    addCounter a #v[d0, d1] =
      #v[fmod10 (digitSum d0 a), if didWrap d0 a then fmod10 (digitSum d1 (unit a)) else d1] := by
  apply Vector.toList_inj.mp
  rw [addCounter_toList]
  cases h : didWrap d0 a
  · simp [ripple_cons_stop _ _ _ _ h]
  · cases h1 : didWrap d1 (unit a)
    · simp [ripple_cons_wrap _ _ _ _ h, ripple_cons_stop _ _ _ _ h1]
    · simp [ripple_cons_wrap _ _ _ _ h, ripple, addDigit, h1]

@[simp] theorem counterValue_nil : counterValue [] = 0 := rfl

@[simp] theorem counterValue_cons (d : Digit) (ds : List Digit) :
    counterValue (d :: ds) = d.val + 10 * counterValue ds := rfl

theorem counterValue_lt : ∀ ds : List Digit, counterValue ds < 10 ^ ds.length
  | [] => by simp
  | d :: ds => by
    have ih := counterValue_lt ds
    have hd := d.isLt
    simp only [counterValue_cons, List.length_cons, pow_succ]
    omega

/-- The digits are determined by the value: two counters of one size and one value are equal. -/
theorem counterValue_injective : ∀ as bs : List Digit,
    as.length = bs.length → counterValue as = counterValue bs → as = bs
  | [], [], _, _ => rfl
  | a :: as, b :: bs, hl, hv => by
    have ha := a.isLt
    have hb := b.isLt
    simp only [counterValue_cons] at hv
    have h1 : a = b := Fin.ext (by omega)
    have h2 := counterValue_injective as bs (by simpa using hl) (by omega)
    rw [h1, h2]

theorem State.value_eq (s : State) : s.value = s.digits[0].val + 10 * s.digits[1].val := by
  have h := congrArg (fun v => counterValue v.toList) (vector_two s.digits)
  simpa [State.value] using h

end Sys2Proof.Machine
end

