-- ==== Sys2Proof/Laws/Operands.lean ====
section
/-! SUPPORT. The two outcomes of each operand form: the operation goes on with the index, or is refused
(R39). -/

namespace Sys2Proof.Machine

theorem withDigit_legal (d : Nat) (k : Fin ndigits → Outcome) (h : d < ndigits) :
    withDigit d k = k ⟨d, h⟩ := dif_pos h

theorem withDigit_refused (d : Nat) (k : Fin ndigits → Outcome) (h : ndigits ≤ d) :
    withDigit d k = .refused .illegalUop := dif_neg (Nat.not_lt.mpr h)

theorem withSegment_legal (k : Nat) (body : Fin nseg → Outcome) (h : k < nseg) :
    withSegment k body = body ⟨k, h⟩ := dif_pos h

theorem withSegment_refused (k : Nat) (body : Fin nseg → Outcome) (h : nseg ≤ k) :
    withSegment k body = .refused .illegalUop := dif_neg (Nat.not_lt.mpr h)

theorem withButton_legal (b : Nat) (k : Fin nbtn → Outcome) (h : b < nbtn) :
    withButton b k = k ⟨b, h⟩ := dif_pos h

theorem withButton_refused (b : Nat) (k : Fin nbtn → Outcome) (h : nbtn ≤ b) :
    withButton b k = .refused .illegalUop := dif_neg (Nat.not_lt.mpr h)

/-- An operand form that answers a next state had a legal index. -/
theorem withDigit_next {d : Nat} {k : Fin ndigits → Outcome} {t : State} (h : withDigit d k = .next t) :
    ∃ hd : d < ndigits, k ⟨d, hd⟩ = .next t := by
  by_cases hd : d < ndigits
  · exact ⟨hd, by rwa [withDigit_legal d k hd] at h⟩
  · rw [withDigit_refused d k (Nat.not_lt.mp hd)] at h
    cases h

theorem withSegment_next {k : Nat} {body : Fin nseg → Outcome} {t : State}
    (h : withSegment k body = .next t) : ∃ hk : k < nseg, body ⟨k, hk⟩ = .next t := by
  by_cases hk : k < nseg
  · exact ⟨hk, by rwa [withSegment_legal k body hk] at h⟩
  · rw [withSegment_refused k body (Nat.not_lt.mp hk)] at h
    cases h

theorem withButton_next {b : Nat} {k : Fin nbtn → Outcome} {t : State} (h : withButton b k = .next t) :
    ∃ hb : b < nbtn, k ⟨b, hb⟩ = .next t := by
  by_cases hb : b < nbtn
  · exact ⟨hb, by rwa [withButton_legal b k hb] at h⟩
  · rw [withButton_refused b k (Nat.not_lt.mp hb)] at h
    cases h

end Sys2Proof.Machine
end

