-- ==== Sys2Proof/Laws/Tick.lean ====
section
/-! SUPPORT. What the phases of a tick can do, said once (R101, R102, R107). -/

namespace Sys2Proof.Machine

/-- With no earlier sample there is no change; with one, the two levels are compared (R93, R94). -/
theorem changed_sample (e : EdgeDetector) (level : Level) :
    (e.sample level).changed = match e.cur with
      | Option.none => false
      | some p => xor p level := by
  obtain ⟨prev, cur⟩ := e
  rcases cur with _ | p
  · rfl
  · cases p <;> cases level <;> rfl

/-- The event of a detector that has just taken `level`: only its newest earlier sample matters. -/
theorem event_sample (e : EdgeDetector) (level : Level) :
    (e.sample level).event = (decide (e.cur = some released) && decide (level = pressed)) := by
  obtain ⟨prev, cur⟩ := e
  rcases cur with _ | c
  · cases level <;> rfl
  · cases c <;> cases level <;> rfl

theorem consume_sample (e : EdgeDetector) (level : Level) :
    (e.sample level).consume = ⟨some level, some level⟩ := rfl

/-- Phase 1 on the latches of any three detectors. -/
theorem samplePhase_btns (s : State) (lvl : LvlWord) : (s.samplePhase lvl).btns =
    #v[(s.btns[0]).sample (levelOf lvl 0), (s.btns[1]).sample (levelOf lvl 1),
      (s.btns[2]).sample (levelOf lvl 2)] := by
  obtain ⟨digits, segs, btns, dirty, result, issued, draws⟩ := s
  rw [vector_three btns]
  rfl

/-- Phase 1 writes nothing but the latches. -/
theorem samplePhase_eq (s : State) (lvl : LvlWord) :
    s.samplePhase lvl = { s with btns := (s.samplePhase lvl).btns } := rfl

/-- Phase 2: the three events, every change consumed, nothing else written. -/
theorem eventPhase_eq (s : State) (e0 e1 e2 : EdgeDetector) (h : s.btns = #v[e0, e1, e2]) :
    s.eventPhase = (eventWord e0.event e1.event e2.event,
      { s with btns := #v[e0.consume, e1.consume, e2.consume] }) := by
  obtain ⟨digits, segs, btns, dirty, result, issued, draws⟩ := s
  subst h
  rfl

/-- Phases 1 and 2 together: the press edges, and every latch holding its new level. -/
theorem sample_event_phases (s : State) (lvl : LvlWord) :
    (s.samplePhase lvl).eventPhase =
      (eventWord (pressEdge s lvl 0) (pressEdge s lvl 1) (pressEdge s lvl 2),
       { s with btns := #v[⟨some (levelOf lvl 0), some (levelOf lvl 0)⟩,
          ⟨some (levelOf lvl 1), some (levelOf lvl 1)⟩, ⟨some (levelOf lvl 2), some (levelOf lvl 2)⟩] }) := by
  rw [eventPhase_eq _ _ _ _ (samplePhase_btns s lvl), event_sample, event_sample, event_sample]
  rfl

@[simp] theorem State.execute_segs (s : State) (c : Command) : (s.execute c).segs = s.segs := by
  cases c <;> rfl

@[simp] theorem State.execute_btns (s : State) (c : Command) : (s.execute c).btns = s.btns := by
  cases c <;> rfl

@[simp] theorem State.execute_result (s : State) (c : Command) : (s.execute c).result = s.result := by
  cases c <;> rfl

@[simp] theorem State.execute_issued (s : State) (c : Command) : (s.execute c).issued = s.issued := by
  cases c <;> rfl

@[simp] theorem State.execute_draws (s : State) (c : Command) : (s.execute c).draws = s.draws := by
  cases c <;> rfl

/-- A command other than `NOP` sets the flag; `NOP` leaves it (R104 to R108). -/
theorem State.execute_dirty (s : State) (c : Command) :
    (s.execute c).dirty = (s.dirty || decide (c ≠ .nop)) := by
  cases c
  · exact (Bool.or_true s.dirty).symm
  · exact (Bool.or_true s.dirty).symm
  · exact (Bool.or_true s.dirty).symm
  · exact (Bool.or_false s.dirty).symm

/-- Phase 5 with a render due. -/
theorem renderPhase_dirty (s : State) (h : s.dirty = true) :
    s.renderPhase = (s.renderAll.clearDirty, true) := if_pos h

/-- Phase 5 with nothing to render. -/
theorem renderPhase_clean (s : State) (h : s.dirty = false) : s.renderPhase = (s, false) := by
  simp [State.renderPhase, h]

/-- Phase 5: a render happens iff one is due, the flag ends clear, and nothing else is written. -/
theorem finish_eq (s : State) (c : Command) : s.finish c =
    { s with
      segs := if s.dirty then s.renderAll.segs else s.segs
      dirty := false
      result := .executed c s.dirty } := by
  cases h : s.dirty
  · simp [State.finish, renderPhase_clean _ h, State.ret, h]
  · simp [State.finish, renderPhase_dirty _ h, State.ret, State.clearDirty, State.renderAll]

/-- The value returned before phase 5 is replaced by it. -/
theorem finish_ret (s : State) (r : Result) (c : Command) : (s.ret r).finish c = s.finish c := by
  rw [finish_eq, finish_eq]
  rfl

/-- Phases 4 and 5: the digits are those of the command, a render happens iff one is due, the flag ends
clear, and nothing else is written. -/
theorem apply_eq (s : State) (c : Command) : s.apply c =
    { s with
      digits := (s.execute c).digits
      segs := if s.dirty || decide (c ≠ .nop) then (s.execute c).renderAll.segs else s.segs
      dirty := false
      result := .executed c (s.dirty || decide (c ≠ .nop)) } := by
  simp only [State.apply, finish_eq, State.execute_dirty, State.execute_segs, State.execute_btns,
    State.execute_issued, State.execute_draws]

end Sys2Proof.Machine
end

