-- ==== Sys2Proof/Laws/Exec.lean ====
section
/-! SUPPORT. The next state of each operation whose indices are legal, one equation per operation, so that no
proof unfolds `exec` and an operand form again. -/

namespace Sys2Proof.Machine

variable (s : State)

theorem exec_digAdd (d : Nat) (a : Int) (h : d < ndigits) : exec (.digAdd d a) s =
    .next ((s.writeDigit ⟨d, h⟩ (addDigit s.digits[d] a).1).ret (.wrap (addDigit s.digits[d] a).2)) := by
  simp only [exec, execDigAdd, State.digAdd, withDigit_legal d _ h, Fin.getElem_fin]

theorem exec_digRst (d : Nat) (h : d < ndigits) :
    exec (.digRst d) s = .next ((s.writeDigit ⟨d, h⟩ 0).ret .none) := by
  simp only [exec, execDigRst, withDigit_legal d _ h]

theorem exec_digRender (d : Nat) (h : d < ndigits) :
    exec (.digRender d) s = .next (s.ret (.pattern config.segTable[s.digits[d]])) := by
  simp only [exec, execDigRender, State.digRender, withDigit_legal d _ h, Fin.getElem_fin]

theorem exec_segSet (d : Nat) (p : Pattern) (h : d < ndigits) :
    exec (.segSet d p) s = .next ((s.writeSegs ⟨d, h⟩ (SegmentMap.unpack p)).ret .none) := by
  simp only [exec, execSegSet, withDigit_legal d _ h]

theorem exec_segGet (d : Nat) (h : d < ndigits) :
    exec (.segGet d) s = .next (s.ret (.pattern (s.segs[d]).pack)) := by
  simp only [exec, execSegGet, withDigit_legal d _ h, Fin.getElem_fin]

theorem exec_segBitSet (d k : Nat) (v : Bool) (h : d < ndigits) (hk : k < nseg) :
    exec (.segBitSet d k v) s =
      .next ((s.writeSegs ⟨d, h⟩ ((s.segs[d]).set ⟨k, hk⟩ v)).ret .none) := by
  simp only [exec, execSegBitSet, withDigit_legal d _ h, withSegment_legal k _ hk, Fin.getElem_fin]

theorem exec_segBitGet (d k : Nat) (h : d < ndigits) (hk : k < nseg) :
    exec (.segBitGet d k) s = .next (s.ret (.segment ((s.segs[d]).get ⟨k, hk⟩))) := by
  simp only [exec, execSegBitGet, withDigit_legal d _ h, withSegment_legal k _ hk, Fin.getElem_fin]

theorem exec_btnSample (b : Nat) (level : Level) (h : b < nbtn) :
    exec (.btnSample b level) s = .next ((s.btnSample ⟨b, h⟩ level).ret (.level level)) := by
  simp only [exec, execBtnSample, withButton_legal b _ h]

/-- `BTN.CHANGED` on a detector that has taken a sample. -/
theorem exec_btnChanged_sampled (b : Nat) (h : b < nbtn) (c : Level) (hc : (s.btns[b]).cur = some c) :
    exec (.btnChanged b) s =
      .next ((s.writeBtn ⟨b, h⟩ (s.btns[b]).consume).ret (.changed (s.btns[b]).changed)) := by
  simp only [exec, execBtnChanged, withButton_legal b _ h, State.btnChanged, Fin.getElem_fin, hc]

/-- `BTN.CHANGED` on a detector that has taken none. -/
theorem exec_btnChanged_unsampled (b : Nat) (h : b < nbtn) (hc : (s.btns[b]).cur = Option.none) :
    exec (.btnChanged b) s = .refused .changedBeforeSample := by
  simp only [exec, execBtnChanged, withButton_legal b _ h, State.btnChanged, Fin.getElem_fin, hc]

/-- `TICK` is phases 4 and 5 on the latches of phases 1 and 2, for the command of the press edges. -/
theorem exec_tick (lvl : LvlWord) : exec (.tick lvl) s = .next (State.apply
    { s with btns := #v[⟨some (levelOf lvl 0), some (levelOf lvl 0)⟩,
        ⟨some (levelOf lvl 1), some (levelOf lvl 1)⟩, ⟨some (levelOf lvl 2), some (levelOf lvl 2)⟩] }
    (decodeCommand (eventWord (pressEdge s lvl 0) (pressEdge s lvl 1) (pressEdge s lvl 2)))) := by
  simp only [exec, execTick, sample_event_phases]

theorem exec_cmd (evt : EvtWord) : exec (.cmd evt) s = .next (s.apply (decodeCommand evt)) := rfl

/-- The row of an event word is phase 4 of its command (R104 to R108). -/
theorem exec_decodeEvt (e : EvtWord) :
    exec (decodeEvt e) s = .next ((s.execute (decodeCommand e)).ret .none) := by
  cases h : decodeCommand e <;> simp only [decodeEvt, h] <;> rfl

/-- The words still to come and the environment's answers are no operation's to change: the frame shared by
phases 4 and 5. -/
theorem apply_inputs (c : Command) : (s.apply c).issued = s.issued ∧ (s.apply c).draws = s.draws := by
  rw [apply_eq]
  exact ⟨rfl, rfl⟩

theorem apply_btns (c : Command) : (s.apply c).btns = s.btns := by
  rw [apply_eq]

theorem apply_dirty (c : Command) : (s.apply c).dirty = false := by
  rw [apply_eq]

theorem apply_digits (c : Command) : (s.apply c).digits = (s.execute c).digits := by
  rw [apply_eq]

theorem apply_result (c : Command) :
    (s.apply c).result = .executed c (s.dirty || decide (c ≠ .nop)) := by
  rw [apply_eq]

/-! ### What an operation can do -/

/-- The next state of every operation, by constructor: the inversion of `exec`, guards included. -/
inductive ExecNext (s : State) : Instr → State → Prop where
  | evtInc (dec rst : Bool) : ExecNext s (.evtInc dec rst) ((s.execute .inc).ret .none)
  | evtDec (rst : Bool) : ExecNext s (.evtDec rst) ((s.execute .dec).ret .none)
  | evtRst : ExecNext s .evtRst ((s.execute .rst).ret .none)
  | evtNop : ExecNext s .evtNop ((s.execute .nop).ret .none)
  | nop : ExecNext s .nop (s.ret .none)
  | digAdd (d : Nat) (a : Int) (h : d < ndigits) : ExecNext s (.digAdd d a)
      ((s.writeDigit ⟨d, h⟩ (addDigit s.digits[d] a).1).ret (.wrap (addDigit s.digits[d] a).2))
  | digRst (d : Nat) (h : d < ndigits) : ExecNext s (.digRst d) ((s.writeDigit ⟨d, h⟩ 0).ret .none)
  | digRender (d : Nat) (h : d < ndigits) :
      ExecNext s (.digRender d) (s.ret (.pattern config.segTable[s.digits[d]]))
  | cntAdd (a : Int) : ExecNext s (.cntAdd a) ((s.cntAdd a).ret .none)
  | cntRst : ExecNext s .cntRst (s.cntRst.ret .none)
  | cntRender : ExecNext s .cntRender (s.ret (.patterns s.cntRender))
  | segSet (d : Nat) (p : Pattern) (h : d < ndigits) :
      ExecNext s (.segSet d p) ((s.writeSegs ⟨d, h⟩ (SegmentMap.unpack p)).ret .none)
  | segGet (d : Nat) (h : d < ndigits) : ExecNext s (.segGet d) (s.ret (.pattern (s.segs[d]).pack))
  | segBitSet (d k : Nat) (v : Bool) (h : d < ndigits) (hk : k < nseg) : ExecNext s (.segBitSet d k v)
      ((s.writeSegs ⟨d, h⟩ ((s.segs[d]).set ⟨k, hk⟩ v)).ret .none)
  | segBitGet (d k : Nat) (h : d < ndigits) (hk : k < nseg) :
      ExecNext s (.segBitGet d k) (s.ret (.segment ((s.segs[d]).get ⟨k, hk⟩)))
  | btnSample (b : Nat) (l : Level) (h : b < nbtn) :
      ExecNext s (.btnSample b l) ((s.btnSample ⟨b, h⟩ l).ret (.level l))
  | btnChanged (b : Nat) (c : Level) (h : b < nbtn) (hc : (s.btns[b]).cur = some c) :
      ExecNext s (.btnChanged b)
        ((s.writeBtn ⟨b, h⟩ (s.btns[b]).consume).ret (.changed (s.btns[b]).changed))
  | tick (lvl : LvlWord) (c : Command) (btns : Vector EdgeDetector nbtn)
      (hb : ∀ b : Fin nbtn, btns[b] = ⟨some (levelOf lvl b), some (levelOf lvl b)⟩) :
      ExecNext s (.tick lvl) (State.apply { s with btns := btns } c)
  | cmd (evt : EvtWord) : ExecNext s (.cmd evt) (s.apply (decodeCommand evt))

theorem exec_next {i : Instr} {s t : State} (h : exec i s = .next t) : ExecNext s i t := by
  cases i with
  | evtInc dec rst => cases h; exact .evtInc dec rst
  | evtDec rst => cases h; exact .evtDec rst
  | evtRst => cases h; exact .evtRst
  | evtNop => cases h; exact .evtNop
  | nop => cases h; exact .nop
  | digAdd d a =>
    simp only [exec, execDigAdd] at h
    obtain ⟨hd, h⟩ := withDigit_next h
    cases h
    exact .digAdd d a hd
  | digRst d =>
    simp only [exec, execDigRst] at h
    obtain ⟨hd, h⟩ := withDigit_next h
    cases h
    exact .digRst d hd
  | digRender d =>
    simp only [exec, execDigRender] at h
    obtain ⟨hd, h⟩ := withDigit_next h
    cases h
    exact .digRender d hd
  | cntAdd a => cases h; exact .cntAdd a
  | cntRst => cases h; exact .cntRst
  | cntRender => cases h; exact .cntRender
  | segSet d p =>
    simp only [exec, execSegSet] at h
    obtain ⟨hd, h⟩ := withDigit_next h
    cases h
    exact .segSet d p hd
  | segGet d =>
    simp only [exec, execSegGet] at h
    obtain ⟨hd, h⟩ := withDigit_next h
    cases h
    exact .segGet d hd
  | segBitSet d k v =>
    simp only [exec, execSegBitSet] at h
    obtain ⟨hd, h⟩ := withDigit_next h
    obtain ⟨hk, h⟩ := withSegment_next h
    cases h
    exact .segBitSet d k v hd hk
  | segBitGet d k =>
    simp only [exec, execSegBitGet] at h
    obtain ⟨hd, h⟩ := withDigit_next h
    obtain ⟨hk, h⟩ := withSegment_next h
    cases h
    exact .segBitGet d k hd hk
  | btnSample b l =>
    simp only [exec, execBtnSample] at h
    obtain ⟨hb, h⟩ := withButton_next h
    cases h
    exact .btnSample b l hb
  | btnChanged b =>
    have h' := h
    simp only [exec, execBtnChanged] at h'
    obtain ⟨hb, -⟩ := withButton_next h'
    cases hc : (s.btns[b]).cur with
    | none => rw [exec_btnChanged_unsampled s b hb hc] at h; cases h
    | some c =>
      rw [exec_btnChanged_sampled s b hb c hc] at h
      cases h
      exact .btnChanged b c hb hc
  | tick lvl =>
    rw [exec_tick] at h
    cases h
    exact .tick lvl _ _ fun b => by fin_cases b <;> rfl
  | cmd evt => cases h; exact .cmd evt

theorem digitIndexLegal_iff (d : Nat) : digitIndexLegal d = true ↔ d < ndigits := decide_eq_true_iff

theorem segmentIndexLegal_iff (k : Nat) : segmentIndexLegal k = true ↔ k < nseg := decide_eq_true_iff

theorem buttonIndexLegal_iff (b : Nat) : buttonIndexLegal b = true ↔ b < nbtn := decide_eq_true_iff

/-- The digit or display index an operation is given. -/
def digitIndex? : Instr → Option Nat
  | .digAdd d _ | .digRst d | .digRender d | .segSet d _ | .segGet d | .segBitSet d _ _
  | .segBitGet d _ => some d
  | _ => Option.none

/-- A digit or display index out of range is refused, whatever the operation (R39). -/
theorem exec_digit_refused (i : Instr) (d : Nat) (hi : digitIndex? i = some d) (h : ndigits ≤ d) :
    exec i s = .refused .illegalUop := by
  cases i <;> cases hi <;>
    simp only [exec, execDigAdd, execDigRst, execDigRender, execSegSet, execSegGet, execSegBitSet,
      execSegBitGet] <;> exact withDigit_refused _ _ h

/-- A button index out of range is refused (R39). -/
theorem exec_button_refused (b : Nat) (l : Level) (h : nbtn ≤ b) :
    exec (.btnSample b l) s = .refused .illegalUop ∧ exec (.btnChanged b) s = .refused .illegalUop := by
  constructor <;> simp only [exec, execBtnSample, execBtnChanged] <;> exact withButton_refused _ _ h

/-- A segment index out of range is refused (R39). -/
theorem exec_segment_refused (d k : Nat) (v : Bool) (h : nseg ≤ k) :
    exec (.segBitSet d k v) s = .refused .illegalUop ∧ exec (.segBitGet d k) s = .refused .illegalUop := by
  by_cases hd : d < ndigits
  · constructor <;> simp only [exec, execSegBitSet, execSegBitGet, withDigit_legal d _ hd] <;>
      exact withSegment_refused _ _ h
  · exact ⟨exec_digit_refused s _ d rfl (Nat.not_lt.mp hd), exec_digit_refused s _ d rfl (Nat.not_lt.mp hd)⟩

end Sys2Proof.Machine
end

