-- ==== Sys2Proof/Laws/PerInstr.lean ====
section
/-! SUPPORT. Statements made per instruction, one lemma per constructor of `Instr`. -/

/-! ### EncodesInItsRow: the word of a well-formed operation matches its own row of the opcode table -/

namespace Sys2Proof.Laws.EncodesInItsRow

/-- The word of a well-formed operation matches the row of its mnemonic and passes that row's range checks
(R53, R56, R61). -/
def Statement (i : Instr) : Prop :=
  i.wf = true →
    match encode i with
    | .evt e => ∃ r ∈ evtRows, r.mnemonic = i.mnemonic ∧ r.matchesWord e = true
    | .uop w => ∃ r ∈ uopRows, r.mnemonic = i.mnemonic ∧ r.matchesWord w = true ∧ r.inRange w = true

theorem digit_range (op : BitVec 4) (d : Nat) (imm : BitVec 8) (h : digitIndexLegal d = true) :
    digitIndexLegal (idxField (packUop op (BitVec.ofNat 4 d) imm)).toNat = true := by
  have hd : d < 2 := of_decide_eq_true h
  rw [idxField_pack, BitVec.toNat_ofNat, Nat.mod_eq_of_lt (by omega)]
  exact h

theorem button_range (op : BitVec 4) (b : Nat) (imm : BitVec 8) (h : buttonIndexLegal b = true) :
    buttonIndexLegal (idxField (packUop op (BitVec.ofNat 4 b) imm)).toNat = true := by
  have hb : b < 3 := of_decide_eq_true h
  rw [idxField_pack, BitVec.toNat_ofNat, Nat.mod_eq_of_lt (by omega)]
  exact h

/-- The segment select of a word is that of its immediate. -/
theorem segment_field (op idx : BitVec 4) (imm : BitVec 8) :
    (packUop op idx imm).extractLsb' 0 3 = imm.extractLsb' 0 3 := by
  have h := congrArg (BitVec.extractLsb' 0 3) (immField_pack op idx imm)
  rw [← h]
  ext i hi
  simp [immField]

theorem evtInc (dec rst : Bool) : Statement (.evtInc dec rst) := fun _ =>
  ⟨⟨"EVT.INC", .inc, 0b001#3, 0b001#3⟩, by decide, rfl, by revert dec rst; decide⟩

theorem evtDec (rst : Bool) : Statement (.evtDec rst) := fun _ =>
  ⟨⟨"EVT.DEC", .dec, 0b010#3, 0b011#3⟩, by decide, rfl, by revert rst; decide⟩

theorem evtRst : Statement .evtRst := fun _ =>
  ⟨⟨"EVT.RST", .rst, 0b100#3, 0b111#3⟩, by decide, rfl, by decide⟩

theorem evtNop : Statement .evtNop := fun _ =>
  ⟨⟨"EVT.NOP", .nop, 0b000#3, 0b111#3⟩, by decide, rfl, by decide⟩

theorem nop : Statement .nop := fun _ =>
  ⟨⟨"NOP", 0x0000#16, 0xFFFF#16, .mustBeZero, false⟩, by decide, rfl, by decide, by decide⟩

theorem digAdd (d : Nat) (amount : Int) : Statement (.digAdd d amount) := by
  intro h
  simp only [Instr.wf, Bool.and_eq_true] at h
  refine ⟨⟨"DIG.ADD", 0x1000#16, 0xF000#16, .digit, false⟩, by decide, rfl, ?_, ?_⟩
  · exact (matchesWord_pack _ _ _ 0xF#4 0x0#4 0x1#4 0x0#4 _ 0x00#8 0x00#8 rfl rfl).mpr (by simp)
  · simpa [UopRow.inRange] using digit_range 0x1#4 d (BitVec.ofInt 8 amount) h.1

theorem digRst (d : Nat) : Statement (.digRst d) := by
  intro h
  refine ⟨⟨"DIG.RST", 0x2000#16, 0xF0FF#16, .digit, false⟩, by decide, rfl, ?_, ?_⟩
  · exact (matchesWord_pack _ _ _ 0xF#4 0x0#4 0x2#4 0x0#4 _ 0xFF#8 0x00#8 rfl rfl).mpr (by simp)
  · simpa [UopRow.inRange] using digit_range 0x2#4 d 0#8 h

theorem digRender (d : Nat) : Statement (.digRender d) := by
  intro h
  refine ⟨⟨"DIG.RENDER", 0x3000#16, 0xF0FF#16, .digit, false⟩, by decide, rfl, ?_, ?_⟩
  · exact (matchesWord_pack _ _ _ 0xF#4 0x0#4 0x3#4 0x0#4 _ 0xFF#8 0x00#8 rfl rfl).mpr (by simp)
  · simpa [UopRow.inRange] using digit_range 0x3#4 d 0#8 h

theorem cntAdd (amount : Int) : Statement (.cntAdd amount) := by
  intro _
  refine ⟨⟨"CNT.ADD", 0x4000#16, 0xFF00#16, .mustBeZero, false⟩, by decide, rfl, ?_, rfl⟩
  exact (matchesWord_pack _ _ _ 0xF#4 0xF#4 0x4#4 0x0#4 _ 0x00#8 0x00#8 rfl rfl).mpr (by simp)

theorem cntRst : Statement .cntRst := fun _ =>
  ⟨⟨"CNT.RST", 0x5000#16, 0xFFFF#16, .mustBeZero, false⟩, by decide, rfl, by decide, by decide⟩

theorem cntRender : Statement .cntRender := fun _ =>
  ⟨⟨"CNT.RENDER", 0x6000#16, 0xFFFF#16, .mustBeZero, false⟩, by decide, rfl, by decide, by decide⟩

theorem segSet (d : Nat) (p : Pattern) : Statement (.segSet d p) := by
  intro h
  have hp : ∀ q : BitVec 7, (0#1 ++ q : BitVec 8) &&& 0x80#8 = 0x00#8 := by decide
  refine ⟨⟨"SEG.SET", 0x7000#16, 0xF080#16, .digit, false⟩, by decide, rfl, ?_, ?_⟩
  · exact (matchesWord_pack _ _ _ 0xF#4 0x0#4 0x7#4 0x0#4 _ 0x80#8 0x00#8 rfl rfl).mpr
      ⟨by simp, by simp, hp p⟩
  · simpa [UopRow.inRange] using digit_range 0x7#4 d (0#1 ++ p) h

theorem segGet (d : Nat) : Statement (.segGet d) := by
  intro h
  refine ⟨⟨"SEG.GET", 0x8000#16, 0xF0FF#16, .digit, false⟩, by decide, rfl, ?_, ?_⟩
  · exact (matchesWord_pack _ _ _ 0xF#4 0x0#4 0x8#4 0x0#4 _ 0xFF#8 0x00#8 rfl rfl).mpr (by simp)
  · simpa [UopRow.inRange] using digit_range 0x8#4 d 0#8 h

theorem select_range (k : Nat) (imm : BitVec 8) (h : segmentIndexLegal k = true)
    (hk : imm.extractLsb' 0 3 = BitVec.ofNat 3 k) :
    segmentIndexLegal (imm.extractLsb' 0 3).toNat = true := by
  have hlt : k < 7 := of_decide_eq_true h
  rw [hk, BitVec.toNat_ofNat, Nat.mod_eq_of_lt (by omega)]
  exact h

theorem segBitSet (d k : Nat) (v : Bool) : Statement (.segBitSet d k v) := by
  intro h
  simp only [Instr.wf, Bool.and_eq_true] at h
  have hs : ∀ j : BitVec 3, (BitVec.ofBool v ++ 0#4 ++ j : BitVec 8) &&& 0x78#8 = 0x00#8 ∧
      (BitVec.ofBool v ++ 0#4 ++ j : BitVec 8).extractLsb' 0 3 = j := by cases v <;> decide
  refine ⟨⟨"SEGBIT.SET", 0x9000#16, 0xF078#16, .digit, true⟩, by decide, rfl, ?_, ?_⟩
  · exact (matchesWord_pack _ _ _ 0xF#4 0x0#4 0x9#4 0x0#4 _ 0x78#8 0x00#8 rfl rfl).mpr
      ⟨by simp, by simp, (hs _).1⟩
  · simp only [UopRow.inRange, segment_field, Bool.not_true, Bool.false_or, Bool.and_eq_true]
    exact ⟨digit_range _ _ _ h.1, select_range k _ h.2 (hs _).2⟩

theorem segBitGet (d k : Nat) : Statement (.segBitGet d k) := by
  intro h
  simp only [Instr.wf, Bool.and_eq_true] at h
  have hs : ∀ j : BitVec 3, (0#5 ++ j : BitVec 8) &&& 0xF8#8 = 0x00#8 ∧
      (0#5 ++ j : BitVec 8).extractLsb' 0 3 = j := by decide
  refine ⟨⟨"SEGBIT.GET", 0xA000#16, 0xF0F8#16, .digit, true⟩, by decide, rfl, ?_, ?_⟩
  · exact (matchesWord_pack _ _ _ 0xF#4 0x0#4 0xA#4 0x0#4 _ 0xF8#8 0x00#8 rfl rfl).mpr
      ⟨by simp, by simp, (hs _).1⟩
  · simp only [UopRow.inRange, segment_field, Bool.not_true, Bool.false_or, Bool.and_eq_true]
    exact ⟨digit_range _ _ _ h.1, select_range k _ h.2 (hs _).2⟩

theorem btnSample (b : Nat) (level : Level) : Statement (.btnSample b level) := by
  intro h
  refine ⟨⟨"BTN.SAMPLE", 0xB000#16, 0xF0FE#16, .button, false⟩, by decide, rfl, ?_, ?_⟩
  · exact (matchesWord_pack _ _ _ 0xF#4 0x0#4 0xB#4 0x0#4 _ 0xFE#8 0x00#8 rfl rfl).mpr
      ⟨by simp, by simp, by cases level <;> decide⟩
  · simpa [UopRow.inRange] using button_range 0xB#4 b (0#7 ++ BitVec.ofBool level) h

theorem btnChanged (b : Nat) : Statement (.btnChanged b) := by
  intro h
  refine ⟨⟨"BTN.CHANGED", 0xC000#16, 0xF0FF#16, .button, false⟩, by decide, rfl, ?_, ?_⟩
  · exact (matchesWord_pack _ _ _ 0xF#4 0x0#4 0xC#4 0x0#4 _ 0xFF#8 0x00#8 rfl rfl).mpr (by simp)
  · simpa [UopRow.inRange] using button_range 0xC#4 b 0#8 h

theorem tick (lvl : LvlWord) : Statement (.tick lvl) := fun _ =>
  ⟨⟨"TICK", 0xD000#16, 0xFFF8#16, .mustBeZero, false⟩, by decide, rfl, by revert lvl; decide, rfl⟩

theorem cmd (evt : EvtWord) : Statement (.cmd evt) := fun _ =>
  ⟨⟨"CMD", 0xE000#16, 0xFFF8#16, .mustBeZero, false⟩, by decide, rfl, by revert evt; decide, rfl⟩

end Sys2Proof.Laws.EncodesInItsRow
end

