-- ==== Sys2Proof/Laws/Segment.lean ====
section
/-! SUPPORT. The seven registers of a display: unpacking and packing a pattern are inverse, and a write to one
register leaves the others (R84 to R88). -/

namespace Sys2Proof.Machine

/-- Bit `k` of the pattern goes to segment `k` (R84). -/
theorem unpack_get (p : Pattern) (k : Fin nseg) : (SegmentMap.unpack p).get k = p.getLsbD k.val := by
  fin_cases k <;> rfl

/-- Bit `k` of the packed pattern is segment `k` (R85). -/
theorem pack_getLsbD (m : SegmentMap) (k : Fin nseg) : m.pack.getLsbD k.val = m.get k := by
  obtain ⟨a, b, c, d, e, f, g⟩ := m
  fin_cases k <;> revert a b c d e f g <;> decide

theorem pack_unpack (p : Pattern) : (SegmentMap.unpack p).pack = p := by
  apply BitVec.eq_of_getLsbD_eq
  intro i hi
  have h := pack_getLsbD (SegmentMap.unpack p) ⟨i, hi⟩
  rw [unpack_get] at h
  exact h

theorem unpack_pack (m : SegmentMap) : SegmentMap.unpack m.pack = m := by
  obtain ⟨a, b, c, d, e, f, g⟩ := m
  revert a b c d e f g
  decide

theorem get_set_same (m : SegmentMap) (k : Fin nseg) (v : Bool) : (m.set k v).get k = v := by
  fin_cases k <;> rfl

theorem get_set_other (m : SegmentMap) (j k : Fin nseg) (v : Bool) (h : j ≠ k) :
    (m.set k v).get j = m.get j := by
  fin_cases k <;> fin_cases j <;> first | rfl | exact absurd rfl h

end Sys2Proof.Machine
end

