-- ==== Sys2Proof/Laws/Step.lean ====
section
/-! SUPPORT. What a step does for each form of the queue of issued words, one equation each, so that no proof
unfolds `step` again. -/

namespace Sys2Proof.Machine

variable (s : State)

/-- A legal operation word: its row. -/
theorem step_uop (u : UopWord) (rest : List OpWord) (i : Instr) (hs : s.issued = .uop u :: rest)
    (hd : decodeUop u = .ok i) : step s = exec i { s with issued := rest } := by
  simp only [step, hs, decode, hd, complete]

/-- An event word: its row as phase 4, then phase 5, which is `CMD` of the word. -/
theorem step_evt (e : EvtWord) (rest : List OpWord) (hs : s.issued = .evt e :: rest) :
    step s = exec (.cmd e) { s with issued := rest } := by
  simp only [step, hs, decode, exec_decodeEvt, complete, finish_ret, exec_cmd, State.apply]

/-- An illegal word. -/
theorem step_illegal (w : OpWord) (rest : List OpWord) (e : DecodeError) (hs : s.issued = w :: rest)
    (hd : decode w = .error e) : step s = .refused .illegalUop := by
  simp only [step, hs, hd]

/-- The polling iteration. -/
theorem step_poll (lvl : LvlWord) (hs : s.issued = []) (he : Config.environment s.draws = some lvl) :
    step s = exec (.tick lvl) { s with draws := s.draws + 1 } := by
  simp only [step, hs, he]

/-- After a failed read the state never changes again (R116). -/
theorem step_stuck (hs : s.issued = []) (he : Config.environment s.draws = none) : step s = .next s := by
  simp only [step, hs, he]

theorem run_stuck (hs : s.issued = []) (he : Config.environment s.draws = none) (k : Nat) :
    Sys2Proof.core.run k s = .next s := by
  induction k with
  | zero => rfl
  | succ k ih =>
    have h : Sys2Proof.core.step s = .next s := step_stuck s hs he
    simp only [Host.Core.run, h, ih]

/-- Every way a step answers a next state: the inversion of `step`. -/
theorem step_next {s t : State} (h : step s = .next t) :
    (∃ u rest i, s.issued = .uop u :: rest ∧ decodeUop u = .ok i ∧
      exec i { s with issued := rest } = .next t) ∨
    (∃ e rest, s.issued = .evt e :: rest ∧ exec (.cmd e) { s with issued := rest } = .next t) ∨
    (∃ lvl, s.issued = [] ∧ Config.environment s.draws = some lvl ∧
      exec (.tick lvl) { s with draws := s.draws + 1 } = .next t) ∨
    (s.issued = [] ∧ Config.environment s.draws = none ∧ t = s) := by
  cases hs : s.issued with
  | nil =>
    cases he : Config.environment s.draws with
    | none =>
      rw [step_stuck s hs he] at h
      cases h
      exact .inr (.inr (.inr ⟨rfl, rfl, rfl⟩))
    | some lvl => exact .inr (.inr (.inl ⟨lvl, rfl, rfl, by rw [← h, step_poll s lvl hs he, hs]⟩))
  | cons w rest =>
    cases w with
    | evt e => exact .inr (.inl ⟨e, rest, rfl, step_evt s e rest hs ▸ h⟩)
    | uop u =>
      cases hd : decodeUop u with
      | error e =>
        rw [step_illegal s (.uop u) rest e hs hd] at h
        cases h
      | ok i => exact .inl ⟨u, rest, i, rfl, hd, step_uop s u rest i hs hd ▸ h⟩

end Sys2Proof.Machine
end

