-- ==== Sys2Proof/Tests/Slice0.lean ====
section
/-! SUPPORT. The model's own tests: well-formedness, decoding of written words, one step of each operation,
and a witness for the hypotheses of each statement. Expected values are those of spec/95_test_vectors.md (its
E, V and P entries) or are worked out by hand from the rule named. -/

namespace Sys2Proof.Tests

open Sys2Proof.Machine

/-! ### Helpers -/

/-- The outcome is a next state with the property. -/
def nextIs (o : Outcome) (p : State → Bool) : Bool :=
  match o with
  | .next s => p s
  | _ => false

/-- The outcome is this refusal. -/
def refusedAs (o : Outcome) (r : Refusal) : Bool :=
  match o with
  | .refused q => decide (q = r)
  | _ => false

/-- Decodes to this operation. -/
def decodesTo (w : OpWord) (i : Instr) : Bool := match decode w with
  | .ok j => decide (j = i)
  | .error _ => false

/-- Refused by the decoder. -/
def illegal (w : OpWord) : Bool := match decode w with
  | .ok _ => false
  | .error e => decide (e = .illegalUop)

/-- The words decode to the operations, and the operations encode to the words. -/
def bothWays (rows : List (OpWord × Instr)) : Bool :=
  rows.all fun r => decodesTo r.1 r.2 && decide (encode r.2 = r.1)

/-- A latch pair of V8 and V10. -/
abbrev pair (p c : Level) : EdgeDetector := ⟨some p, some c⟩

/-- The start state of V9 and V10: value 50, displays showing it, clean, all buttons last seen released. -/
def at50 : State :=
  { State.reset with
    digits := #v[0, 5]
    segs := #v[SegmentMap.unpack 0x3f#7, SegmentMap.unpack 0x6d#7]
    btns := Vector.replicate nbtn (pair true true)
    dirty := false }

/-- `State.reset` with other digits. -/
def withDigits (d0 d1 : Digit) : State := { State.reset with digits := #v[d0, d1] }

/-- The digits, the shown patterns and the flag. -/
def shows (s : State) (digits : List Digit) (segs : List Pattern) (dirty : Bool) : Bool :=
  decide (s.digits.toList = digits) && decide (s.segs.toList.map SegmentMap.pack = segs) &&
    decide (s.dirty = dirty)

/-! ### Well-formedness: one ill-formed term for each check, and the last legal value beside it -/

theorem test_wf_digit_index : Instr.wf (.digRst 2) = false ∧ Instr.wf (.digRst 1) = true := by decide
theorem test_wf_digAdd_index : Instr.wf (.digAdd 2 1) = false := by decide
theorem test_wf_digRender_index : Instr.wf (.digRender 2) = false := by decide
theorem test_wf_segSet_index : Instr.wf (.segSet 2 0#7) = false := by decide
theorem test_wf_segGet_index : Instr.wf (.segGet 2) = false := by decide
theorem test_wf_segBit_index :
    Instr.wf (.segBitSet 2 0 true) = false ∧ Instr.wf (.segBitGet 2 0) = false := by decide
theorem test_wf_segment_index :
    Instr.wf (.segBitSet 0 7 true) = false ∧ Instr.wf (.segBitGet 0 7) = false ∧
    Instr.wf (.segBitGet 1 6) = true := by decide
theorem test_wf_button_index :
    Instr.wf (.btnSample 3 true) = false ∧ Instr.wf (.btnChanged 3) = false ∧
    Instr.wf (.btnChanged 2) = true := by decide
theorem test_wf_amount :
    Instr.wf (.digAdd 0 128) = false ∧ Instr.wf (.digAdd 0 (-129)) = false ∧
    Instr.wf (.cntAdd 128) = false ∧ Instr.wf (.cntAdd (-129)) = false ∧
    Instr.wf (.cntAdd 127) = true ∧ Instr.wf (.cntAdd (-128)) = true := by decide

/-! ### Decoding: a written word for every constructor (V11, E2, R53, R65) -/

theorem test_decode_evt :
    bothWays [(.evt 0b001#3, .evtInc false false), (.evt 0b011#3, .evtInc true false),
      (.evt 0b101#3, .evtInc false true), (.evt 0b111#3, .evtInc true true),
      (.evt 0b010#3, .evtDec false), (.evt 0b110#3, .evtDec true),
      (.evt 0b100#3, .evtRst), (.evt 0b000#3, .evtNop)] = true := by decide

theorem test_decode_digit :
    bothWays [(.uop 0x1001#16, .digAdd 0 1), (.uop 0x11FF#16, .digAdd 1 (-1)),
      (.uop 0x1080#16, .digAdd 0 (-128)), (.uop 0x107F#16, .digAdd 0 127),
      (.uop 0x2100#16, .digRst 1), (.uop 0x3000#16, .digRender 0)] = true := by decide

theorem test_decode_counter :
    bothWays [(.uop 0x4001#16, .cntAdd 1), (.uop 0x40FF#16, .cntAdd (-1)), (.uop 0x4000#16, .cntAdd 0),
      (.uop 0x5000#16, .cntRst), (.uop 0x6000#16, .cntRender)] = true := by decide

theorem test_decode_segment :
    bothWays [(.uop 0x703F#16, .segSet 0 0x3f#7), (.uop 0x717F#16, .segSet 1 0x7f#7),
      (.uop 0x8100#16, .segGet 1), (.uop 0x9086#16, .segBitSet 0 6 true),
      (.uop 0x9103#16, .segBitSet 1 3 false), (.uop 0xA006#16, .segBitGet 0 6)] = true := by decide

theorem test_decode_button :
    bothWays [(.uop 0xB001#16, .btnSample 0 released), (.uop 0xB200#16, .btnSample 2 pressed),
      (.uop 0xC100#16, .btnChanged 1)] = true := by decide

theorem test_decode_tick :
    bothWays [(.uop 0x0000#16, .nop), (.uop 0xD007#16, .tick 0b111#3), (.uop 0xD000#16, .tick 0b000#3),
      (.uop 0xE004#16, .cmd 0b100#3)] = true := by decide

/-- V12, the whole table. -/
theorem test_decode_illegal :
    ([0xF000#16, 0xFFFF#16, 0x0001#16, 0x0100#16, 0x1200#16, 0x2001#16, 0x3F00#16, 0x4100#16, 0x5100#16,
      0x5001#16, 0x6001#16, 0x7080#16, 0x7280#16, 0x8001#16].all fun w => illegal (.uop w)) = true ∧
    ([0x9007#16, 0xA007#16, 0x9048#16, 0xA080#16, 0xB002#16, 0xB300#16, 0xC001#16, 0xC300#16, 0xD008#16,
      0xD107#16, 0xE008#16].all fun w => illegal (.uop w)) = true := by decide

/-- The shapes of spec/opcode_table.json's numbers: a byte for an event word, two bytes for an operation. -/
theorem test_decodeTableWord :
    decodeTableWord 8 0x2 = some (.evtDec false) ∧ decodeTableWord 16 0x2 = none ∧
    decodeTableWord 16 0xC200 = some (.btnChanged 2) ∧ decodeTableWord 24 0 = none := by decide

/-- The rows of R56 are pairwise disjoint: no word can agree with the match bits of two rows. -/
theorem test_rows_disjoint :
    uopRows.Pairwise (fun r q => r.bits &&& q.mask &&& r.mask ≠ q.bits &&& r.mask &&& q.mask) := by decide

/-! ### One operation each -/

/-- R104: only the digits and the flag; the displays wait for a render. -/
theorem test_evtInc :
    nextIs (exec (.evtInc true false) at50) (fun s => shows s [1, 5] [0x3f#7, 0x6d#7] true) = true := by decide

theorem test_evtInc_wraps :
    nextIs (exec (.evtInc false false) (withDigits 9 9)) (fun s => shows s [0, 0] [0#7, 0#7] true) = true := by
  decide

theorem test_evtDec :
    nextIs (exec (.evtDec true) at50) (fun s => shows s [9, 4] [0x3f#7, 0x6d#7] true) = true := by decide

theorem test_evtRst :
    nextIs (exec .evtRst at50) (fun s => shows s [0, 0] [0x3f#7, 0x6d#7] true) = true := by decide

theorem test_evtNop :
    nextIs (exec .evtNop at50) (fun s => decide (s = at50)) = true := by decide

/-- P6 step 13. -/
theorem test_nop : nextIs (exec .nop at50) (fun s => decide (s = at50)) = true := by decide

/-- V1: a negative sum uses the floored modulo. -/
theorem test_digAdd_negative :
    nextIs (exec (.digAdd 0 (-25)) (withDigits 4 7))
      (fun s => decide (s.digits = #v[9, 7]) && decide (s.result = .wrap true)) = true := by decide

/-- V1: the digit comes back and the wrap is still reported. -/
theorem test_digAdd_ten :
    nextIs (exec (.digAdd 1 10) (withDigits 4 5))
      (fun s => decide (s.digits = #v[4, 5]) && decide (s.result = .wrap true)) = true := by decide

/-- V2. -/
theorem test_digRst :
    nextIs (exec (.digRst 0) (withDigits 7 4)) (fun s => decide (s = withDigits 0 4)) = true := by decide

/-- P6 step 10. -/
theorem test_digRender :
    nextIs (exec (.digRender 1) (withDigits 0 3))
      (fun s => decide (s = { withDigits 0 3 with result := .pattern 0x4f#7 })) = true := by decide

/-- V5, value 09 plus 11: under-carries. -/
theorem test_cntAdd_under_carries :
    nextIs (exec (.cntAdd 11) (withDigits 9 0)) (fun s => decide (s = withDigits 0 1)) = true := by decide

/-- V5, value 12 minus 13: one unit is borrowed, not two. -/
theorem test_cntAdd_under_borrows :
    nextIs (exec (.cntAdd (-13)) (withDigits 2 1)) (fun s => decide (s = withDigits 9 0)) = true := by decide

/-- V6. -/
theorem test_cntRst :
    nextIs (exec .cntRst (withDigits 3 7)) (fun s => decide (s = withDigits 0 0)) = true := by decide

/-- V6, value 42. -/
theorem test_cntRender :
    nextIs (exec .cntRender (withDigits 2 4))
      (fun s => decide (s = { withDigits 2 4 with result := .patterns #v[0x5b#7, 0x66#7] })) = true := by decide

/-- P6 step 5. -/
theorem test_segSet :
    nextIs (exec (.segSet 1 0x55#7) at50) (fun s => shows s [0, 5] [0x3f#7, 0x55#7] false &&
      decide (s.segs[1] = ⟨true, false, true, false, true, false, true⟩)) = true := by decide

/-- V7 step 13. -/
theorem test_segGet :
    nextIs (exec (.segGet 1) at50) (fun s => decide (s = { at50 with result := .pattern 0x6d#7 })) = true := by
  decide

/-- V7 step 8. -/
theorem test_segBitSet :
    nextIs (exec (.segBitSet 0 6 true) at50) (fun s => shows s [0, 5] [0x7f#7, 0x6d#7] false) = true := by decide

/-- E3: the pattern of 0 has segment f lit and segment g dark. -/
theorem test_segBitGet :
    nextIs (exec (.segBitGet 0 5) at50) (fun s => decide (s.result = .segment true)) = true ∧
    nextIs (exec (.segBitGet 0 6) at50) (fun s => decide (s.result = .segment false)) = true := by decide

/-- V8. -/
theorem test_btnSample :
    nextIs (exec (.btnSample 2 pressed) at50)
      (fun s => decide (s.btns = #v[pair true true, pair true true, pair true false]) &&
        decide (s.result = .level false)) = true := by decide

/-- V8: the first sample leaves `prev` without a sample. -/
theorem test_btnSample_first :
    nextIs (exec (.btnSample 0 released) State.reset)
      (fun s => decide (s.btns[0] = ⟨none, some true⟩)) = true := by decide

/-- V8: the press row of R93, and the first-sample row. -/
theorem test_btnChanged :
    nextIs (exec (.btnChanged 1) { at50 with btns := #v[pair true true, pair true false, pair true true] })
      (fun s => decide (s.btns[1] = pair false false) && decide (s.result = .changed true)) = true ∧
    nextIs (exec (.btnChanged 0) { at50 with btns := #v[⟨none, some false⟩, pair true false, pair true true] })
      (fun s => decide (s.btns[0] = pair false false) && decide (s.result = .changed false)) = true := by decide

/-- V8, the unreachable row, and P5 step 9. -/
theorem test_btnChanged_refused :
    refusedAs (exec (.btnChanged 0) { at50 with btns := #v[⟨some true, none⟩, pair true true, pair true true] })
      .changedBeforeSample = true ∧
    refusedAs (exec (.btnChanged 1) State.reset) .changedBeforeSample = true := by decide

/-- V10, all three pressed at once. -/
theorem test_tick_priority :
    nextIs (exec (.tick 0b000#3) at50) (fun s => shows s [1, 5] [0x06#7, 0x6d#7] false &&
      decide (s.btns = Vector.replicate nbtn (pair false false)) &&
      decide (s.result = .executed .inc true)) = true := by decide

/-- V10, increment held: a new press of reset alone acts. -/
theorem test_tick_held :
    nextIs (exec (.tick 0b010#3) { at50 with btns := #v[pair false false, pair true true, pair true true] })
      (fun s => shows s [0, 0] [0x3f#7, 0x3f#7] false &&
        decide (s.btns = #v[pair false false, pair true true, pair false false]) &&
        decide (s.result = .executed .rst true)) = true := by decide

/-- V9, `0b110`: decrement wins over reset. -/
theorem test_cmd :
    nextIs (exec (.cmd 0b110#3) at50) (fun s => shows s [9, 4] [0x6f#7, 0x66#7] false &&
      decide (s.btns = at50.btns) && decide (s.result = .executed .dec true)) = true := by decide

/-- P6 step 4: a render is due, so `NOP` renders. -/
theorem test_cmd_nop_renders :
    nextIs (exec (.cmd 0b000#3) (withDigits 9 9)) (fun s => shows s [9, 9] [0x6f#7, 0x6f#7] false &&
      decide (s.result = .executed .nop true)) = true := by decide

/-- R39: an index out of range is refused also when no word spells it. -/
theorem test_index_refused :
    refusedAs (exec (.digAdd 16 1) at50) .illegalUop = true ∧
    refusedAs (exec (.segBitGet 0 7) at50) .illegalUop = true ∧
    refusedAs (exec (.btnSample 3 true) at50) .illegalUop = true := by decide

/-- One step from reset runs the word placed first (P9 step 1). -/
theorem test_step :
    nextIs (step (State.reset.withFetchWord 16 0xE001)) (fun s => shows s [1, 0] [0x06#7, 0x3f#7] false) = true ∧
    refusedAs (step (State.reset.withFetchWord 16 0x0001)) .illegalUop = true := by decide

/-- An event word is a command executed whole: the counter moves and the displays show it (V9, row `0b110`). -/
theorem test_step_event :
    nextIs (step (at50.withFetchWord 8 0b110)) (fun s => shows s [9, 4] [0x6f#7, 0x66#7] false &&
      decide (s.result = .executed .dec true)) = true := by decide

/-! ### Witnesses: the hypotheses of each statement can be met -/

theorem witness_DecodeOfEncodeIsIdentity :
    Instr.wf (.digAdd 1 (-128)) = true ∧ Instr.wf (.segBitSet 1 6 true) = true ∧
    Instr.wf (.btnSample 2 false) = true := by decide

theorem witness_EncodeOfDecodeIsIdentity :
    decodesTo (.uop 0xE007#16) (.cmd 0b111#3) = true ∧ decodesTo (.evt 0b111#3) (.evtInc true true) = true := by
  decide

/-- A word of a row with its index in range, one with its index out of range, and one of no row. -/
theorem witness_UopWordLegalIffItMatchesARow :
    (∃ r ∈ uopRows, r.matchesWord 0x11FF#16 = true ∧ r.inRange 0x11FF#16 = true) ∧
    (∃ r ∈ uopRows, r.matchesWord 0x1200#16 = true) ∧
    (∀ r ∈ uopRows, r.matchesWord 0x1200#16 = true → r.inRange 0x1200#16 = false) ∧
    (∀ r ∈ uopRows, r.matchesWord 0xF000#16 = false) := by decide

theorem witness_DigitNibbleRoundTrip : 10 ≤ (10#4).toNat ∧ 10 ≤ (15#4).toNat := by decide

theorem witness_SegmentTableIsTheStandardOne :
    config.segTable[(9 : Digit)] = config.segTable[(9 : Digit)] := by decide

theorem witness_ZeroDigitsRefusedAtConstruction : (8 : Nat) ≠ 7 ∧ 1 ≤ (1 : Nat) ∧ 1 ≤ config.n := by decide

/-- The three clauses: an operation word, an event word and an illegal word at the head of the queue. -/
theorem witness_StepExecutesTheIssuedWord :
    (State.reset.withFetchWord 16 0x5000).issued = [.uop 0x5000#16] ∧
    decodesTo (.uop 0x5000#16) .cntRst = true ∧
    (State.reset.withFetchWord 8 0b111).issued = [.evt 0b111#3] ∧
    (State.reset.withFetchWord 16 0xF000).issued = [.uop 0xF000#16] ∧ illegal (.uop 0xF000#16) = true := by decide

theorem witness_StepRunsTheFetchedWord :
    OpWord.ofTable 16 0x9086 = .uop 0x9086#16 ∧ decodeTableWord 16 0x9086 = some (.segBitSet 0 6 true) ∧
    OpWord.ofTable 8 7 = .evt 0b111#3 := by decide

theorem witness_StepPollsWhenNothingIsIssued : State.reset.issued = [] := rfl

/-- The last digit index in range and the first out of it, the two ends of the amount. -/
theorem witness_DigAddAddsModuloTen :
    1 < ndigits ∧ ndigits ≤ 2 ∧ (-128 : Int) ≤ -128 ∧ (127 : Int) ≤ 127 := by decide

theorem witness_DigRstClearsOneDigit : 1 < ndigits ∧ ndigits ≤ 2 := by decide

theorem witness_DigRenderReadsTheTable : 0 < ndigits ∧ ndigits ≤ 15 := by decide

/-- The three cases of the lower digit at their boundaries: sums 0, 9, 10 and -1. -/
theorem witness_CntAddRipplesOneUnit :
    (((withDigits 0 0).digits[0].val : Int) + 0 = 0) ∧ (((withDigits 4 0).digits[0].val : Int) + 5 = 9) ∧
    (9 < ((withDigits 9 0).digits[0].val : Int) + 1) ∧ (((withDigits 0 0).digits[0].val : Int) + (-1) < 0) := by
  decide

theorem witness_RippleIsExactForSmallAmounts : (-10 : Int) ≤ -10 ∧ (10 : Int) ≤ 10 := by decide

theorem witness_CntAddExactUpToTenThenUnderCarries :
    (-10 : Int) ≤ 10 ∧ (10 : Int) ≤ 10 ∧ (withDigits 9 0).value = 9 := by decide

theorem witness_RippleTouchesTheLowestRun : ((9 : Digit).val = (8 : Digit).val + 1) ∧
    ((1 : Digit).val = (0 : Digit).val + 1) := by decide

theorem witness_SegSetUnpacksThePattern : 1 < ndigits ∧ ndigits ≤ 2 := by decide

theorem witness_SegGetPacksThePattern : 1 < ndigits ∧ ndigits ≤ 2 := by decide

theorem witness_SegBitSetWritesOneRegister :
    1 < ndigits ∧ 6 < nseg ∧ (5 : Fin nseg).val ≠ 6 ∧ ndigits ≤ 2 ∧ nseg ≤ 7 ∧ (0b1000#4 ≠ 0#4) := by decide

theorem witness_SegBitGetReadsOneRegister :
    1 < ndigits ∧ 6 < nseg ∧ ndigits ≤ 2 ∧ nseg ≤ 7 ∧ (0b10000#5 ≠ 0#5) := by decide

theorem witness_SegmentRoundTrip : 1 < ndigits ∧ 6 < nseg := by decide

theorem witness_BtnSampleShiftsTheLatches : 2 < nbtn ∧ nbtn ≤ 3 ∧ 1#7 ≠ 0#7 := by decide

/-- The three rows of the table and the index out of range. -/
theorem witness_BtnChangedComparesAndConsumes :
    2 < nbtn ∧ (State.reset.btns[2]).cur = none ∧
    ((State.reset.btnSample 2 pressed).btns[2]).prev = none ∧
    ((State.reset.btnSample 2 pressed).btns[2]).cur = some pressed ∧
    (at50.btns[2]).prev = some released ∧ (at50.btns[2]).cur = some released ∧ nbtn ≤ 3 := by decide

theorem witness_SecondChangedIsFalse : ∃ t, exec (.btnChanged 2) at50 = .next t := ⟨_, rfl⟩

theorem witness_PollReportsTheEdge :
    2 < nbtn ∧ (0b100#3).getLsbD 2 = released ∧ ∃ v, exec (.tick 0b100#3) at50 = .next v :=
  ⟨by decide, by decide, _, rfl⟩

theorem witness_SecondSampleLosesTheEdge : 2 < nbtn := by decide

theorem witness_EvtIncCountsUp : 0b111#3 &&& 0b001#3 = 0b001#3 := by decide

theorem witness_EvtDecCountsDown : 0b110#3 &&& 0b011#3 = 0b010#3 := by decide

theorem witness_EvtRstClearsTheCounter : 0b100#3 &&& 0b111#3 = 0b100#3 := by decide

theorem witness_EvtNopWritesNothing : 0b000#3 &&& 0b111#3 = 0b000#3 := by decide

/-- A render due, a command other than `NOP`, and neither. -/
theorem witness_CmdExecutesThenRenders :
    State.reset.dirty = true ∧ decodeCommand 0b001#3 ≠ .nop ∧ at50.dirty = false ∧
    decodeCommand 0b000#3 = .nop := by decide

theorem witness_TickIsCmdOfThePressEdges :
    ∀ b : Fin nbtn, (Vector.replicate nbtn (pair true true))[b] =
      ⟨some ((0b111#3).getLsbD b.val), some ((0b111#3).getLsbD b.val)⟩ := by decide

theorem witness_FirstTickRendersOnly :
    (∀ b : Fin nbtn, (State.reset.btns[b]).cur = none) ∧ State.reset.dirty = true := by decide

theorem witness_BounceCountsTwice :
    (at50.btns[0]).cur = some released ∧ (at50.btns[1]).cur = some released := by decide

theorem witness_LegalOperationsComplete :
    indicesLegal (.btnChanged 2) = true ∧ changedAfterSample (.btnChanged 2) at50 :=
  ⟨by decide, fun b _ h => by cases h; exact (nofun : some released ≠ none)⟩

theorem witness_OnlyCountingWritesDigits :
    ∃ t, exec (.cmd 0b001#3) at50 = .next t ∧ t.digits ≠ at50.digits := ⟨_, rfl, by decide⟩

/-- One for each way an output changes. -/
theorem witness_OnlySegmentWritesChangeOutputs :
    (∃ t, exec (.segSet 1 0x7f#7) at50 = .next t ∧ t.pin 1 1 ≠ at50.pin 1 1) ∧
    (∃ t, exec (.segBitSet 0 6 true) at50 = .next t ∧ t.pin 0 6 ≠ at50.pin 0 6) ∧
    (∃ t, exec (.tick 0b011#3) at50 = .next t ∧ t.pin 1 1 ≠ at50.pin 1 1) :=
  ⟨⟨_, rfl, by decide⟩, ⟨_, rfl, by decide⟩, ⟨_, rfl, by decide⟩⟩

/-- One for each way a latch changes. -/
theorem witness_OnlySamplingWritesLatches :
    (∃ t, exec (.btnSample 2 pressed) at50 = .next t ∧ t.btns[2] ≠ at50.btns[2]) ∧
    (∃ t, exec (.btnChanged 2) (at50.btnSample 2 pressed) = .next t ∧
      t.btns[2] ≠ (at50.btnSample 2 pressed).btns[2]) ∧
    (∃ t, exec (.tick 0b011#3) at50 = .next t ∧ t.btns[2] ≠ at50.btns[2]) :=
  ⟨⟨_, rfl, by decide⟩, ⟨_, rfl, by decide⟩, ⟨_, rfl, by decide⟩⟩

theorem witness_DirtyIsSetByCommandsClearedByRender :
    (∃ t, exec .evtRst at50 = .next t ∧ at50.dirty = false ∧ t.dirty = true) ∧
    (∃ t, exec (.tick 0b111#3) State.reset = .next t ∧ State.reset.dirty = true ∧ t.dirty = false) :=
  ⟨⟨_, rfl, by decide, by decide⟩, ⟨_, rfl, by decide, by decide⟩⟩

theorem witness_OperationsLeaveTheInputsAlone : ∃ t, exec (.tick 0b000#3) at50 = .next t := ⟨_, rfl⟩

theorem witness_SegmentsNeverFlowBack :
    (∃ t, exec (.cmd 0b001#3) at50 = .next t) ∧
    exec (.btnChanged 0) State.reset = .refused .changedBeforeSample := ⟨⟨_, rfl⟩, rfl⟩

/-- A state with a sampled detector and one with none. -/
theorem witness_StepKeepsLatchesLegal :
    LatchesLegal at50 ∧ (at50.btns[2]).state = .sampled ∧ LatchesLegal State.reset ∧
    ∃ t, step (at50.withFetchWord 16 0xC200) = .next t :=
  ⟨by decide, by decide, by decide, _, rfl⟩

/-- A tick word issued, and nothing issued. -/
theorem witness_TickingStepsEndSettled :
    TicksOnly (at50.withFetchWord 16 0xD005) ∧ ShowsCountOrDirty (at50.withFetchWord 16 0xD005) ∧
    (at50.withFetchWord 16 0xD005).issued = encode (.tick 0b101#3) :: [] ∧
    TicksOnly State.reset ∧ ShowsCountOrDirty State.reset ∧ State.reset.issued = [] :=
  ⟨fun w h => ⟨0b101#3, List.mem_singleton.mp h⟩, .inr (by decide), rfl, fun w h => (by cases h), .inl rfl, rfl⟩

/-- No render due and none left due by an event word; a render due and done. -/
theorem witness_StepNeverLeavesARenderDue :
    (∃ t, step (at50.withFetchWord 8 0b001) = .next t ∧ (at50.withFetchWord 8 0b001).dirty = false) ∧
    (∃ t, step (State.reset.withFetchWord 16 0xE000) = .next t ∧
      (State.reset.withFetchWord 16 0xE000).dirty = true ∧ t.dirty = false) :=
  ⟨⟨_, rfl, rfl⟩, ⟨_, rfl, rfl, rfl⟩⟩

end Sys2Proof.Tests
end

/-! ### The event word (R53) -/

namespace Sys2Proof

/-- An event word is its three bits. -/
theorem evtWord_eq_iff (e f : EvtWord) :
    e = f ↔ e.getLsbD 0 = f.getLsbD 0 ∧ e.getLsbD 1 = f.getLsbD 1 ∧ e.getLsbD 2 = f.getLsbD 2 := by
  constructor
  · rintro rfl
    exact ⟨rfl, rfl, rfl⟩
  · rintro ⟨h0, h1, h2⟩
    refine BitVec.eq_of_getLsbD_eq fun i hi => ?_
    interval_cases i
    · exact h0
    · exact h1
    · exact h2

theorem decodeCommand_eq_inc_iff (e : EvtWord) : decodeCommand e = .inc ↔ e.getLsbD 0 = true := by
  unfold decodeCommand
  split_ifs <;> simp_all

theorem decodeCommand_eq_dec_iff (e : EvtWord) :
    decodeCommand e = .dec ↔ e.getLsbD 0 = false ∧ e.getLsbD 1 = true := by
  unfold decodeCommand
  split_ifs <;> simp_all

theorem decodeCommand_eq_rst_iff (e : EvtWord) :
    decodeCommand e = .rst ↔ e.getLsbD 0 = false ∧ e.getLsbD 1 = false ∧ e.getLsbD 2 = true := by
  unfold decodeCommand
  split_ifs <;> simp_all

theorem decodeCommand_eq_nop_iff (e : EvtWord) : decodeCommand e = .nop ↔ e = 0b000#3 := by
  rw [evtWord_eq_iff]
  unfold decodeCommand
  split_ifs <;> simp_all

/-- A row's mask keeps the bits its command looks at, and its match says their values (R53). -/
theorem evtRow_matches_iff (e : EvtWord) (r : EvtRow) (hr : r ∈ evtRows) :
    e &&& r.mask = r.bits ↔ decodeCommand e = r.command := by
  simp only [evtRows, List.mem_cons, List.not_mem_nil, or_false] at hr
  obtain rfl | rfl | rfl | rfl := hr
  · simp [decodeCommand_eq_inc_iff, evtWord_eq_iff]
  · simp [decodeCommand_eq_dec_iff, evtWord_eq_iff]
  · simp [decodeCommand_eq_rst_iff, evtWord_eq_iff]
  · simp [decodeCommand_eq_nop_iff, evtWord_eq_iff]

/-- Settles O5: each command's condition is the path through the priority decode that ends in it. -/
theorem eventWordDecodesByPriority : Obligations.EventWordDecodesByPriority := fun e =>
  ⟨decodeCommand_eq_inc_iff e, decodeCommand_eq_dec_iff e, decodeCommand_eq_rst_iff e,
    decodeCommand_eq_nop_iff e, evtRow_matches_iff e⟩

end Sys2Proof

/-! ### The word of a digit operation (R55, R57, R61) -/

namespace Sys2Proof

/-- The decoder reads the three fields a word is written with (R55). -/
theorem decode_uop_append (op idx : BitVec 4) (imm : BitVec 8) :
    decode (.uop (op ++ idx ++ imm)) = decodeFields op idx imm :=
  decodeUop_pack op idx imm

/-- A word without a stray bit is accepted when its operands are in range (R62). -/
theorem acceptUop_of_wf {i : Instr} (h : i.wf = true) : acceptUop true i = .ok i :=
  (acceptUop_ok true i i).mpr ⟨rfl, h, rfl⟩

/-- A legal digit index fits its 4-bit field (R61). -/
theorem toNat_ofNat_digitIndex {d : Nat} (h : d < ndigits) : (BitVec.ofNat 4 d).toNat = d := by
  have hd : d < 2 := h
  rw [BitVec.toNat_ofNat, Nat.mod_eq_of_lt (by omega)]

/-- An amount in `-128..127` is the sign extension of its 8-bit field (R57). -/
theorem toInt_ofInt_amount {a : Int} (hlo : -128 ≤ a) (hhi : a ≤ 127) : (BitVec.ofInt 8 a).toInt = a :=
  BitVec.toInt_ofInt_eq_self (by decide) hlo (Int.lt_add_one_of_le hhi)

theorem decode_digAdd_word {d : Nat} {a : Int} (h : d < ndigits) (hlo : -128 ≤ a) (hhi : a ≤ 127) :
    decode (.uop (0x1#4 ++ BitVec.ofNat 4 d ++ BitVec.ofInt 8 a)) = .ok (.digAdd d a) := by
  have hwf : (Instr.digAdd d a).wf = true := by simp [Instr.wf, digitIndexLegal, amountFits, h, hlo, hhi]
  calc decode (.uop (0x1#4 ++ BitVec.ofNat 4 d ++ BitVec.ofInt 8 a))
      = acceptUop true (.digAdd (BitVec.ofNat 4 d).toNat (BitVec.ofInt 8 a).toInt) :=
        decode_uop_append _ _ _
    _ = .ok (.digAdd d a) := by
        rw [toNat_ofNat_digitIndex h, toInt_ofInt_amount hlo hhi, acceptUop_of_wf hwf]

theorem decode_digRst_word {d : Nat} (h : d < ndigits) :
    decode (.uop (0x2#4 ++ BitVec.ofNat 4 d ++ 0#8)) = .ok (.digRst d) := by
  have hwf : (Instr.digRst d).wf = true := decide_eq_true h
  calc decode (.uop (0x2#4 ++ BitVec.ofNat 4 d ++ 0#8))
      = acceptUop true (.digRst (BitVec.ofNat 4 d).toNat) := decode_uop_append _ _ _
    _ = .ok (.digRst d) := by rw [toNat_ofNat_digitIndex h, acceptUop_of_wf hwf]

theorem decode_digRender_word {d : Nat} (h : d < ndigits) :
    decode (.uop (0x3#4 ++ BitVec.ofNat 4 d ++ 0#8)) = .ok (.digRender d) := by
  have hwf : (Instr.digRender d).wf = true := decide_eq_true h
  calc decode (.uop (0x3#4 ++ BitVec.ofNat 4 d ++ 0#8))
      = acceptUop true (.digRender (BitVec.ofNat 4 d).toNat) := decode_uop_append _ _ _
    _ = .ok (.digRender d) := by rw [toNat_ofNat_digitIndex h, acceptUop_of_wf hwf]

end Sys2Proof

/-! ### The digit operations (R70 to R74) -/

namespace Sys2Proof.Machine

/-- The decimal sum differs from the exact one by a multiple of ten (R10, R70). -/
theorem ten_dvd_sub_fmod10 (x : Int) : (10 : Int) ∣ x - (fmod10 x).val := by
  rw [fmod10_val]
  exact Int.dvd_self_sub_emod

/-- A wrap is reported exactly when the digit written is not the exact sum (R70). -/
theorem didWrap_iff_ne (old : Digit) (amount : Int) : didWrap old amount = true ↔
    (old.val : Int) + amount ≠ (fmod10 ((old.val : Int) + amount)).val :=
  decide_eq_true_iff

theorem exec_digAdd_refused (s : State) {d : Nat} (a : Int) (h : ndigits ≤ d) :
    exec (.digAdd d a) s = .refused .illegalUop := by
  simp only [exec, execDigAdd, withDigit_refused d _ h]

theorem exec_digRst_refused (s : State) {d : Nat} (h : ndigits ≤ d) :
    exec (.digRst d) s = .refused .illegalUop := by
  simp only [exec, execDigRst, withDigit_refused d _ h]

theorem exec_digRender_refused (s : State) {d : Nat} (h : ndigits ≤ d) :
    exec (.digRender d) s = .refused .illegalUop := by
  simp only [exec, execDigRender, withDigit_refused d _ h]

/-- Settles O14: the new digit is `fmod10` of the exact sum, and the two forms of the wrap are the
definition of `did_wrap` and R71's range. -/
theorem digAddAddsModuloTen : Obligations.DigAddAddsModuloTen := by
  intro s d a
  refine ⟨fun h => ?_, exec_digAdd_refused s a⟩
  exact ⟨fmod10 (digitSum s.digits[d] a), didWrap s.digits[d] a, exec_digAdd s d a h,
    ten_dvd_sub_fmod10 _, didWrap_iff_ne _ _, didWrap_iff _ _, decode_digAdd_word h⟩

/-- Settles O15: the write of 0, the word and the refusal, each by its law. -/
theorem digRstClearsOneDigit : Obligations.DigRstClearsOneDigit := fun s d =>
  ⟨fun h => ⟨exec_digRst s d h, decode_digRst_word h⟩, exec_digRst_refused s⟩

/-- Settles O16: the pattern returned, the word and the refusal, each by its law. -/
theorem digRenderReadsTheTable : Obligations.DigRenderReadsTheTable := fun s d =>
  ⟨fun h => ⟨exec_digRender s d h, decode_digRender_word h⟩, exec_digRender_refused s⟩

end Sys2Proof.Machine

/-! ### The counter operations (R76 to R80) -/

namespace Sys2Proof

/-- `CNT.ADD`'s word: the index field is 0 and the amount fills the last eight bits (R56, R57). -/
theorem decode_cntAdd_word {a : Int} (hlo : -128 ≤ a) (hhi : a ≤ 127) :
    decode (.uop (0x4#4 ++ 0#4 ++ BitVec.ofInt 8 a)) = .ok (.cntAdd a) := by
  have hwf : (Instr.cntAdd a).wf = true := by simp [Instr.wf, amountFits, hlo, hhi]
  calc decode (.uop (0x4#4 ++ 0#4 ++ BitVec.ofInt 8 a))
      = acceptUop true (.cntAdd (BitVec.ofInt 8 a).toInt) := decode_uop_append _ _ _
    _ = .ok (.cntAdd a) := by rw [toInt_ofInt_amount hlo hhi, acceptUop_of_wf hwf]

theorem decode_cntRst_word : decode (.uop 0x5000#16) = .ok .cntRst :=
  decode_uop_append 0x5#4 0#4 0#8

end Sys2Proof

namespace Sys2Proof.Machine

theorem exec_cntAdd (s : State) (a : Int) : exec (.cntAdd a) s = .next ((s.cntAdd a).ret .none) := rfl

theorem exec_cntRst (s : State) : exec .cntRst s = .next (s.cntRst.ret .none) := rfl

/-- The higher of two digits after `CNT.ADD`: the ripple unit is added to it iff the lower one wraps (R76). -/
def rippledHigher (d0 d1 : Digit) (a : Int) : Digit :=
  if didWrap d0 a then fmod10 (digitSum d1 (unit a)) else d1

/-- `CNT.ADD` on the two digits, each at its new value, with the frame (R76). -/
theorem exec_cntAdd_pair (s : State) (a : Int) : exec (.cntAdd a) s = .next { s with
    digits := #v[fmod10 (digitSum s.digits[0] a), rippledHigher s.digits[0] s.digits[1] a]
    result := .none } := by
  have hpair : addCounter a s.digits =
      #v[fmod10 (digitSum s.digits[0] a), rippledHigher s.digits[0] s.digits[1] a] :=
    (congrArg (addCounter a) (vector_two s.digits)).trans (addCounter_pair a _ _)
  rw [exec_cntAdd, ← hpair]
  rfl

/-! The ripple unit (R77) -/

/-- A sum above 9 is only reached upward. -/
theorem unit_of_nine_lt_sum {d : Digit} {a : Int} (h : 9 < (d.val : Int) + a) : unit a = 1 :=
  if_pos (by omega)

/-- A negative sum is only reached downward. -/
theorem unit_of_sum_neg {d : Digit} {a : Int} (h : (d.val : Int) + a < 0) : unit a = -1 :=
  if_neg (by omega)

theorem unit_eq_one_or (a : Int) : unit a = 1 ∨ unit a = -1 :=
  ite_eq_or_eq _ _ _

theorem unit_unit (a : Int) : unit (unit a) = unit a := by
  obtain h | h := unit_eq_one_or a <;> rw [h] <;> rfl

/-! The higher digit, by the sum of the lower one (R76 to R78) -/

theorem rippledHigher_of_range {d0 d1 : Digit} {a : Int} (h0 : 0 ≤ (d0.val : Int) + a)
    (h9 : (d0.val : Int) + a ≤ 9) : rippledHigher d0 d1 a = d1 :=
  if_neg fun h => by have := (didWrap_iff d0 a).mp h; omega

theorem rippledHigher_of_nine_lt {d0 d1 : Digit} {a : Int} (h : 9 < (d0.val : Int) + a) :
    rippledHigher d0 d1 a = fmod10 (digitSum d1 1) := by
  rw [rippledHigher, if_pos ((didWrap_iff d0 a).mpr (.inr h)), unit_of_nine_lt_sum h]

theorem rippledHigher_of_neg {d0 d1 : Digit} {a : Int} (h : (d0.val : Int) + a < 0) :
    rippledHigher d0 d1 a = fmod10 (digitSum d1 (-1)) := by
  rw [rippledHigher, if_pos ((didWrap_iff d0 a).mpr (.inl h)), unit_of_sum_neg h]

/-- Settles O17: the lower digit is `fmod10` of its sum, and the higher one follows from where that sum lies. -/
theorem cntAddRipplesOneUnit : Obligations.CntAddRipplesOneUnit := by
  intro s a
  refine ⟨_, _, exec_cntAdd_pair s a, ten_dvd_sub_fmod10 _, rippledHigher_of_range, fun h => ?_, fun h => ?_,
    decode_cntAdd_word⟩
  · exact rippledHigher_of_nine_lt h ▸ ten_dvd_sub_fmod10 _
  · exact rippledHigher_of_neg h ▸ ten_dvd_sub_fmod10 _

/-! The counter's value (R79) -/

/-- A number modulo `10 * m` is its lowest digit and the tenth of it modulo `m`. -/
theorem emod_ten_mul (x m : Int) : x % (10 * m) = x % 10 + 10 * (x / 10 % m) := by
  simp only [Int.emod_def, Int.ediv_ediv_of_nonneg (show (0 : Int) ≤ 10 by decide)]
  ring

/-- For an amount of at most ten a wrapping digit crosses one multiple of ten, so the exact carry IS the ripple
unit (R79). -/
theorem carry_eq_unit_of_didWrap {d : Digit} {a : Int} (hlo : -10 ≤ a) (hhi : a ≤ 10)
    (h : didWrap d a = true) : digitSum d a / 10 = unit a := by
  unfold digitSum
  rcases (didWrap_iff d a).mp h with hneg | hnine
  · rw [unit_of_sum_neg hneg]
    omega
  · rw [unit_of_nine_lt_sum hnine]
    omega

theorem carry_eq_zero_of_not_didWrap {d : Digit} {a : Int} (h : didWrap d a = false) :
    digitSum d a / 10 = 0 := by
  have hrange := (didWrap_iff d a).not.mp (Bool.eq_false_iff.mp h)
  unfold digitSum
  omega

/-- The ripple is exact addition modulo `10^N` for amounts of at most ten: from the second digit on the amount is
the unit, which is one of them (R79, R82). -/
theorem counterValue_ripple (ds : List Digit) (a : Int) (hlo : -10 ≤ a) (hhi : a ≤ 10) :
    (counterValue (ripple (unit a) a ds) : Int) = ((counterValue ds : Int) + a) % (10 : Int) ^ ds.length := by
  induction ds generalizing a with
  | nil => simp [ripple]
  | cons d ds ih =>
    have hlow : ((counterValue (d :: ds) : Int) + a) % 10 = (fmod10 (digitSum d a)).val := by
      rw [fmod10_val, counterValue_cons, digitSum]
      omega
    have hhigh : ((counterValue (d :: ds) : Int) + a) / 10 = counterValue ds + digitSum d a / 10 := by
      rw [counterValue_cons, digitSum]
      omega
    rw [List.length_cons, pow_succ', emod_ten_mul, hlow, hhigh]
    cases h : didWrap d a with
    | false =>
      have hlt : (counterValue ds : Int) < 10 ^ ds.length := by exact_mod_cast counterValue_lt ds
      rw [carry_eq_zero_of_not_didWrap h, add_zero, Int.emod_eq_of_lt (by omega) hlt, ripple_cons_stop _ _ _ _ h]
      simp
    | true =>
      have hunit := unit_eq_one_or a
      have hrest := ih (unit a) (by omega) (by omega)
      rw [unit_unit] at hrest
      rw [carry_eq_unit_of_didWrap hlo hhi h, ← hrest, ripple_cons_wrap _ _ _ _ h]
      simp

/-- `CNT.ADD` of an amount of at most ten moves the value exactly, modulo 100 (R79). -/
theorem value_cntAdd (s : State) {a : Int} (hlo : -10 ≤ a) (hhi : a ≤ 10) :
    ((s.cntAdd a).value : Int) = ((s.value : Int) + a) % 100 := by
  have h := counterValue_ripple s.digits.toList a hlo hhi
  rw [Vector.length_toList] at h
  rw [State.value, State.cntAdd_digits, addCounter_toList]
  exact h

/-- The value 9 is the digits 9 and 0. -/
theorem digits_of_value_nine {s : State} (h : s.value = 9) : s.digits = #v[9, 0] := by
  rw [State.value_eq] at h
  have h0 : s.digits[0] = 9 := Fin.ext (show s.digits[0].val = 9 by omega)
  have h1 : s.digits[1] = 0 := Fin.ext (show s.digits[1].val = 0 by omega)
  rw [vector_two s.digits, h0, h1]

/-- `9 + 11` crosses two multiples of ten and the ripple carries one (R79). -/
theorem addCounter_nine_eleven : addCounter 11 (#v[9, 0] : Vector Digit 2) = #v[0, 1] := by
  decide

/-- Settles O19: up to ten the ripple is exact; from 9, eleven loses one of its two carries. -/
theorem cntAddExactUpToTenThenUnderCarries : Obligations.CntAddExactUpToTenThenUnderCarries := by
  refine ⟨fun s a hlo hhi => ⟨_, exec_cntAdd s a, value_cntAdd s hlo hhi⟩,
    fun s h => ⟨_, exec_cntAdd s 11, ?_⟩⟩
  have hd : (s.cntAdd 11).digits = #v[0, 1] := by
    rw [State.cntAdd_digits, digits_of_value_nine h]
    exact addCounter_nine_eleven
  rw [State.value, State.ret_digits, hd]
  rfl

/-- Settles O22: the write of all zeros is the operation's law, and the word is its row. -/
theorem cntRstClearsEveryDigit : Obligations.CntRstClearsEveryDigit := fun s =>
  ⟨Vector.replicate ndigits 0, exec_cntRst s, fun d => Vector.getElem_replicate d.isLt, decode_cntRst_word⟩

end Sys2Proof.Machine

/-! ### The word of a segment operation (R56 to R59) -/

namespace Sys2Proof

/-- A word with a stray bit is no encoding, whatever operation it would spell (R62). -/
theorem acceptUop_of_stray_bit (i : Instr) : acceptUop false i = .error .illegalUop := rfl

/-- A legal segment index fits its 3-bit field (R59). -/
theorem toNat_ofNat_segmentIndex {k : Nat} (h : k < nseg) : (BitVec.ofNat 3 k).toNat = k := by
  have hk : k < 7 := h
  rw [BitVec.toNat_ofNat, Nat.mod_eq_of_lt (by omega)]

/-- `SEG.SET`'s row: a bit that must be 0 above the pattern (R56, R84). -/
theorem decode_segSet_row (idx : BitVec 4) (z : BitVec 1) (p : Pattern) :
    decode (.uop (0x7#4 ++ idx ++ (z ++ p))) = acceptUop (!z.getLsbD 0) (.segSet idx.toNat p) := by
  have hz : (z ++ p : BitVec 8).getLsbD 7 = z.getLsbD 0 := BitVec.getLsbD_append
  have hp : (z ++ p : BitVec 8).extractLsb' 0 7 = p := BitVec.extractLsb'_append_eq_right
  calc decode (.uop (0x7#4 ++ idx ++ (z ++ p)))
      = acceptUop (!(z ++ p : BitVec 8).getLsbD 7)
          (.segSet idx.toNat ((z ++ p : BitVec 8).extractLsb' 0 7)) := decode_uop_append _ _ _
    _ = acceptUop (!z.getLsbD 0) (.segSet idx.toNat p) := by rw [hz, hp]

/-- `SEGBIT.SET`'s row: the value, four bits that must be 0, the segment index (R56, R59, R86). -/
theorem decode_segBitSet_row (idx z : BitVec 4) (j : BitVec 3) (v : Bool) :
    decode (.uop (0x9#4 ++ idx ++ (BitVec.ofBool v ++ z ++ j))) =
      acceptUop (z == 0#4) (.segBitSet idx.toNat j.toNat v) := by
  have hv : (BitVec.ofBool v ++ z ++ j : BitVec 8).getLsbD 7 = v := by
    rw [BitVec.getLsbD_append, BitVec.getLsbD_append]
    cases v <;> rfl
  have hz : (BitVec.ofBool v ++ z ++ j : BitVec 8).extractLsb' 3 4 = z :=
    (BitVec.extractLsb'_append_eq_of_le (le_refl 3)).trans BitVec.extractLsb'_append_eq_right
  have hj : (BitVec.ofBool v ++ z ++ j : BitVec 8).extractLsb' 0 3 = j := BitVec.extractLsb'_append_eq_right
  calc decode (.uop (0x9#4 ++ idx ++ (BitVec.ofBool v ++ z ++ j)))
      = acceptUop ((BitVec.ofBool v ++ z ++ j : BitVec 8).extractLsb' 3 4 == 0#4)
          (.segBitSet idx.toNat ((BitVec.ofBool v ++ z ++ j : BitVec 8).extractLsb' 0 3).toNat
            ((BitVec.ofBool v ++ z ++ j : BitVec 8).getLsbD 7)) := decode_uop_append _ _ _
    _ = acceptUop (z == 0#4) (.segBitSet idx.toNat j.toNat v) := by rw [hv, hz, hj]

/-- `SEGBIT.GET`'s row: five bits that must be 0, the segment index (R56, R59, R87). -/
theorem decode_segBitGet_row (idx : BitVec 4) (z : BitVec 5) (j : BitVec 3) :
    decode (.uop (0xA#4 ++ idx ++ (z ++ j))) = acceptUop (z == 0#5) (.segBitGet idx.toNat j.toNat) := by
  have hz : (z ++ j : BitVec 8).extractLsb' 3 5 = z := BitVec.extractLsb'_append_eq_left
  have hj : (z ++ j : BitVec 8).extractLsb' 0 3 = j := BitVec.extractLsb'_append_eq_right
  calc decode (.uop (0xA#4 ++ idx ++ (z ++ j)))
      = acceptUop ((z ++ j : BitVec 8).extractLsb' 3 5 == 0#5)
          (.segBitGet idx.toNat ((z ++ j : BitVec 8).extractLsb' 0 3).toNat) := decode_uop_append _ _ _
    _ = acceptUop (z == 0#5) (.segBitGet idx.toNat j.toNat) := by rw [hz, hj]

theorem decode_segSet_word {d : Nat} (p : Pattern) (h : d < ndigits) :
    decode (.uop (0x7#4 ++ BitVec.ofNat 4 d ++ (0#1 ++ p))) = .ok (.segSet d p) := by
  have hwf : (Instr.segSet d p).wf = true := decide_eq_true h
  rw [decode_segSet_row, toNat_ofNat_digitIndex h]
  exact acceptUop_of_wf hwf

/-- The eighth bit of a pattern must be 0 (R84). -/
theorem decode_segSet_stray (idx : BitVec 4) (p : Pattern) :
    decode (.uop (0x7#4 ++ idx ++ (1#1 ++ p))) = .error .illegalUop :=
  (decode_segSet_row idx 1#1 p).trans (acceptUop_of_stray_bit _)

theorem decode_segGet_word {d : Nat} (h : d < ndigits) :
    decode (.uop (0x8#4 ++ BitVec.ofNat 4 d ++ 0#8)) = .ok (.segGet d) := by
  have hwf : (Instr.segGet d).wf = true := decide_eq_true h
  calc decode (.uop (0x8#4 ++ BitVec.ofNat 4 d ++ 0#8))
      = acceptUop true (.segGet (BitVec.ofNat 4 d).toNat) := decode_uop_append _ _ _
    _ = .ok (.segGet d) := by rw [toNat_ofNat_digitIndex h, acceptUop_of_wf hwf]

theorem decode_segBitSet_word {d k : Nat} (v : Bool) (h : d < ndigits) (hk : k < nseg) :
    decode (.uop (0x9#4 ++ BitVec.ofNat 4 d ++ (BitVec.ofBool v ++ 0#4 ++ BitVec.ofNat 3 k))) =
      .ok (.segBitSet d k v) := by
  have hwf : (Instr.segBitSet d k v).wf = true := by
    simp [Instr.wf, digitIndexLegal, segmentIndexLegal, h, hk]
  rw [decode_segBitSet_row, toNat_ofNat_digitIndex h, toNat_ofNat_segmentIndex hk]
  exact acceptUop_of_wf hwf

theorem decode_segBitSet_stray (idx : BitVec 4) {z : BitVec 4} (j : BitVec 3) (v : Bool) (h : z ≠ 0#4) :
    decode (.uop (0x9#4 ++ idx ++ (BitVec.ofBool v ++ z ++ j))) = .error .illegalUop := by
  rw [decode_segBitSet_row, beq_false_of_ne h, acceptUop_of_stray_bit]

theorem decode_segBitGet_word {d k : Nat} (h : d < ndigits) (hk : k < nseg) :
    decode (.uop (0xA#4 ++ BitVec.ofNat 4 d ++ (0#5 ++ BitVec.ofNat 3 k))) = .ok (.segBitGet d k) := by
  have hwf : (Instr.segBitGet d k).wf = true := by
    simp [Instr.wf, digitIndexLegal, segmentIndexLegal, h, hk]
  rw [decode_segBitGet_row, toNat_ofNat_digitIndex h, toNat_ofNat_segmentIndex hk]
  exact acceptUop_of_wf hwf

theorem decode_segBitGet_stray (idx : BitVec 4) {z : BitVec 5} (j : BitVec 3) (h : z ≠ 0#5) :
    decode (.uop (0xA#4 ++ idx ++ (z ++ j))) = .error .illegalUop := by
  rw [decode_segBitGet_row, beq_false_of_ne h, acceptUop_of_stray_bit]

end Sys2Proof

/-! ### The segment operations (R84 to R87) -/

namespace Sys2Proof.Machine

/-- Either index out of range is refused (R39, R86, R87). -/
theorem exec_segBit_refused (s : State) {d k : Nat} (v : Bool) (h : ndigits ≤ d ∨ nseg ≤ k) :
    exec (.segBitSet d k v) s = .refused .illegalUop ∧ exec (.segBitGet d k) s = .refused .illegalUop := by
  obtain hd | hk := h
  · exact ⟨exec_digit_refused s _ d rfl hd, exec_digit_refused s _ d rfl hd⟩
  · exact exec_segment_refused s d k v hk

/-- Settles O24: the write is the operation's law, where `unpack` lists bits 0 to 6; the words are its row. -/
theorem segSetUnpacksThePattern : Obligations.SegSetUnpacksThePattern := fun s d p =>
  ⟨fun h => ⟨exec_segSet s d p h, decode_segSet_word p h⟩, fun idx => decode_segSet_stray idx p,
    exec_digit_refused s _ d rfl⟩

/-- Settles O25: the pattern returned is the packed display, whose bit `k` is segment `k`. -/
theorem segGetPacksThePattern : Obligations.SegGetPacksThePattern := by
  intro s d
  refine ⟨fun h => ⟨(s.segs[d]).pack, exec_segGet s d h, ?_⟩, exec_digit_refused s _ d rfl⟩
  have hbit := pack_getLsbD s.segs[d]
  exact ⟨hbit 0, hbit 1, hbit 2, hbit 3, hbit 4, hbit 5, hbit 6, decode_segGet_word h⟩

/-- Settles O26: the display written is the old one with one register set. -/
theorem segBitSetWritesOneRegister : Obligations.SegBitSetWritesOneRegister := by
  intro s d k v
  refine ⟨fun h hk => ?_, fun hout => (exec_segBit_refused s v hout).left,
    fun idx z j hz => decode_segBitSet_stray idx j v hz⟩
  exact ⟨(s.segs[d]).set ⟨k, hk⟩ v, exec_segBitSet s d k v h hk, get_set_same _ _ v,
    fun j hj => get_set_other _ j _ v (Fin.ne_of_val_ne hj), decode_segBitSet_word v h hk⟩

/-- Settles O27: the register returned, the words and the index refusals, each by its law. -/
theorem segBitGetReadsOneRegister : Obligations.SegBitGetReadsOneRegister := fun s _ _ =>
  ⟨fun h hk => ⟨exec_segBitGet s _ _ h hk, decode_segBitGet_word h hk⟩,
    fun hout => (exec_segBit_refused s false hout).right, fun idx _ j hz => decode_segBitGet_stray idx j hz⟩

end Sys2Proof.Machine

/-! ### The word of a button operation (R56, R60, R61) -/

namespace Sys2Proof

/-- A legal button index fits its 4-bit field (R61). -/
theorem toNat_ofNat_buttonIndex {b : Nat} (h : b < nbtn) : (BitVec.ofNat 4 b).toNat = b := by
  have hb : b < 3 := h
  rw [BitVec.toNat_ofNat, Nat.mod_eq_of_lt (by omega)]

/-- `BTN.SAMPLE`'s row: seven bits that must be 0 above the level (R56, R92). -/
theorem decode_btnSample_row (idx : BitVec 4) (z : BitVec 7) (level : Level) :
    decode (.uop (0xB#4 ++ idx ++ (z ++ BitVec.ofBool level))) =
      acceptUop (z == 0#7) (.btnSample idx.toNat level) := by
  have hz : (z ++ BitVec.ofBool level : BitVec 8).extractLsb' 1 7 = z := BitVec.extractLsb'_append_eq_left
  have hlevel : (z ++ BitVec.ofBool level : BitVec 8).getLsbD 0 = level := by
    rw [BitVec.getLsbD_append]
    cases level <;> rfl
  calc decode (.uop (0xB#4 ++ idx ++ (z ++ BitVec.ofBool level)))
      = acceptUop ((z ++ BitVec.ofBool level : BitVec 8).extractLsb' 1 7 == 0#7)
          (.btnSample idx.toNat ((z ++ BitVec.ofBool level : BitVec 8).getLsbD 0)) :=
        decode_uop_append _ _ _
    _ = acceptUop (z == 0#7) (.btnSample idx.toNat level) := by rw [hz, hlevel]

theorem decode_btnSample_word {b : Nat} (level : Level) (h : b < nbtn) :
    decode (.uop (0xB#4 ++ BitVec.ofNat 4 b ++ (0#7 ++ BitVec.ofBool level))) =
      .ok (.btnSample b level) := by
  have hwf : (Instr.btnSample b level).wf = true := decide_eq_true h
  rw [decode_btnSample_row, toNat_ofNat_buttonIndex h]
  exact acceptUop_of_wf hwf

theorem decode_btnSample_stray (idx : BitVec 4) {z : BitVec 7} (level : Level) (h : z ≠ 0#7) :
    decode (.uop (0xB#4 ++ idx ++ (z ++ BitVec.ofBool level))) = .error .illegalUop := by
  rw [decode_btnSample_row, beq_false_of_ne h, acceptUop_of_stray_bit]

end Sys2Proof

/-! ### The edge-detector operations (R92) -/

namespace Sys2Proof.Machine

/-- Settles O29: the shift of the latches is the operation's law, where `sample` moves `cur` to `prev`; the
words are its row. -/
theorem btnSampleShiftsTheLatches : Obligations.BtnSampleShiftsTheLatches := fun s b level =>
  ⟨fun h => ⟨exec_btnSample s b level h, decode_btnSample_word level h⟩,
    fun h => (exec_button_refused s b level h).left, fun idx _ hz => decode_btnSample_stray idx level hz⟩

end Sys2Proof.Machine

/-! ### Construction (R115) -/

namespace Sys2Proof

theorem Config.construct_no_digits (g : Nat) : Config.construct 0 g = .error .badConfiguration :=
  dif_neg (Nat.not_succ_le_zero 0)

/-- R7 fixes `NSEG`. -/
theorem Config.construct_not_seven_segments (n : Nat) {g : Nat} (h : g ≠ 7) :
    Config.construct n g = .error .badConfiguration := by
  have hseg : g ≠ config.nseg := h
  by_cases hn : 1 ≤ n
  · exact (dif_pos hn).trans (if_neg hseg)
  · exact dif_neg hn

theorem Config.construct_legal {n : Nat} (h : 1 ≤ n) :
    Config.construct n 7 = .ok { config with n := n, digits_pos := h } :=
  (dif_pos h).trans (if_pos rfl)

end Sys2Proof

namespace Sys2Proof.Machine

/-- Settles O9: the two refusals and the one success of `Config.construct`; a configuration carries the proof
of its lower bound. -/
theorem zeroDigitsRefusedAtConstruction : Obligations.ZeroDigitsRefusedAtConstruction :=
  ⟨Config.construct_no_digits, fun n _ => Config.construct_not_seven_segments n,
    fun _ h => ⟨_, Config.construct_legal h, rfl⟩, Config.digits_pos⟩

end Sys2Proof.Machine

/-! ### The encoder and the decoder are inverse (R53, R56, R66) -/

namespace Sys2Proof

theorem decode_encode_evtInc (dec rst : Bool) :
    decode (encode (.evtInc dec rst)) = .ok (.evtInc dec rst) := by
  revert dec rst
  decide

theorem decode_encode_evtDec (rst : Bool) : decode (encode (.evtDec rst)) = .ok (.evtDec rst) := by
  revert rst
  decide

theorem decode_btnChanged_word {b : Nat} (h : b < nbtn) :
    decode (.uop (0xC#4 ++ BitVec.ofNat 4 b ++ 0#8)) = .ok (.btnChanged b) := by
  have hwf : (Instr.btnChanged b).wf = true := decide_eq_true h
  calc decode (.uop (0xC#4 ++ BitVec.ofNat 4 b ++ 0#8))
      = acceptUop true (.btnChanged (BitVec.ofNat 4 b).toNat) := decode_uop_append _ _ _
    _ = .ok (.btnChanged b) := by rw [toNat_ofNat_buttonIndex h, acceptUop_of_wf hwf]

/-- Three bits below five zeros are the low field of their byte, and the rest of it is 0 (R51, R52). -/
theorem extract_zero_append (z : BitVec 3) :
    (0#5 ++ z : BitVec 8).extractLsb' 3 5 = 0#5 ∧ (0#5 ++ z : BitVec 8).extractLsb' 0 3 = z :=
  ⟨BitVec.extractLsb'_append_eq_left, BitVec.extractLsb'_append_eq_right⟩

theorem decode_tick_word (lvl : LvlWord) :
    decode (.uop (0xD#4 ++ 0#4 ++ (0#5 ++ lvl))) = .ok (.tick lvl) := by
  obtain ⟨hhigh, hlow⟩ := extract_zero_append lvl
  calc decode (.uop (0xD#4 ++ 0#4 ++ (0#5 ++ lvl)))
      = acceptUop ((0#5 ++ lvl : BitVec 8).extractLsb' 3 5 == 0#5)
          (.tick ((0#5 ++ lvl : BitVec 8).extractLsb' 0 3)) := decode_uop_append _ _ _
    _ = .ok (.tick lvl) := by rw [hhigh, hlow]; rfl

theorem decode_cmd_word (evt : EvtWord) :
    decode (.uop (0xE#4 ++ 0#4 ++ (0#5 ++ evt))) = .ok (.cmd evt) := by
  obtain ⟨hhigh, hlow⟩ := extract_zero_append evt
  calc decode (.uop (0xE#4 ++ 0#4 ++ (0#5 ++ evt)))
      = acceptUop ((0#5 ++ evt : BitVec 8).extractLsb' 3 5 == 0#5)
          (.cmd ((0#5 ++ evt : BitVec 8).extractLsb' 0 3)) := decode_uop_append _ _ _
    _ = .ok (.cmd evt) := by rw [hhigh, hlow]; rfl

theorem amountFits_iff (a : Int) : amountFits a = true ↔ -128 ≤ a ∧ a ≤ 127 := by
  simp [amountFits]

/-- Settles O2: each row reads back the fields it is written with, which hold the operand when it is in range. -/
theorem decodeOfEncodeIsIdentity : Obligations.DecodeOfEncodeIsIdentity := by
  intro i hwf
  cases i with
  | evtInc dec rst => exact decode_encode_evtInc dec rst
  | evtDec rst => exact decode_encode_evtDec rst
  | evtRst => rfl
  | evtNop => rfl
  | nop => rfl
  | digAdd d a =>
    obtain ⟨hd, ha⟩ := Bool.and_eq_true_iff.mp hwf
    obtain ⟨hlo, hhi⟩ := (amountFits_iff a).mp ha
    exact decode_digAdd_word (of_decide_eq_true hd) hlo hhi
  | digRst d => exact decode_digRst_word (of_decide_eq_true hwf)
  | digRender d => exact decode_digRender_word (of_decide_eq_true hwf)
  | cntAdd a =>
    obtain ⟨hlo, hhi⟩ := (amountFits_iff a).mp hwf
    exact decode_cntAdd_word hlo hhi
  | cntRst => rfl
  | cntRender => rfl
  | segSet d p => exact decode_segSet_word p (of_decide_eq_true hwf)
  | segGet d => exact decode_segGet_word (of_decide_eq_true hwf)
  | segBitSet d k v =>
    obtain ⟨hd, hk⟩ := Bool.and_eq_true_iff.mp hwf
    exact decode_segBitSet_word v (of_decide_eq_true hd) (of_decide_eq_true hk)
  | segBitGet d k =>
    obtain ⟨hd, hk⟩ := Bool.and_eq_true_iff.mp hwf
    exact decode_segBitGet_word (of_decide_eq_true hd) (of_decide_eq_true hk)
  | btnSample b level => exact decode_btnSample_word level (of_decide_eq_true hwf)
  | btnChanged b => exact decode_btnChanged_word (of_decide_eq_true hwf)
  | tick lvl => exact decode_tick_word lvl
  | cmd evt => exact decode_cmd_word evt

theorem encode_decodeEvt (e : EvtWord) : encode (decodeEvt e) = .evt e ∧ (decodeEvt e).wf = true := by
  revert e
  decide

/-! An immediate from its fields (R57 to R60) -/

/-- A word of `m + n` bits is its upper `m` bits before its lower `n`. -/
theorem extractLsb'_append_low {m n : Nat} (x : BitVec (m + n)) :
    x.extractLsb' n m ++ x.extractLsb' 0 n = x := by
  rw [BitVec.extractLsb'_append_extractLsb'_eq_extractLsb' (Nat.zero_add n).symm]
  exact BitVec.extractLsb'_eq_self

/-- A one-bit field is its bit. -/
theorem extractLsb'_one (imm : BitVec 8) (k : Nat) : imm.extractLsb' k 1 = BitVec.ofBool (imm.getLsbD k) := by
  ext i hi
  obtain rfl : i = 0 := by omega
  simp

theorem zero_append_low_three {imm : BitVec 8} (h : imm.extractLsb' 3 5 = 0#5) :
    0#5 ++ imm.extractLsb' 0 3 = imm :=
  h ▸ extractLsb'_append_low (m := 5) (n := 3) imm

theorem zero_append_low_bit {imm : BitVec 8} (h : imm.extractLsb' 1 7 = 0#7) :
    0#7 ++ BitVec.ofBool (imm.getLsbD 0) = imm := by
  rw [← extractLsb'_one, ← h]
  exact extractLsb'_append_low (m := 7) (n := 1) imm

theorem zero_append_low_seven {imm : BitVec 8} (h : imm.getLsbD 7 = false) :
    0#1 ++ imm.extractLsb' 0 7 = imm := by
  have hz : imm.extractLsb' 7 1 = 0#1 := by rw [extractLsb'_one, h]; rfl
  rw [← hz]
  exact extractLsb'_append_low (m := 1) (n := 7) imm

theorem top_bit_append_low_three {imm : BitVec 8} (h : imm.extractLsb' 3 4 = 0#4) :
    BitVec.ofBool (imm.getLsbD 7) ++ 0#4 ++ imm.extractLsb' 0 3 = imm := by
  have hhigh : imm.extractLsb' 7 1 ++ imm.extractLsb' 3 4 = imm.extractLsb' 3 5 :=
    BitVec.extractLsb'_append_extractLsb'_eq_extractLsb' rfl
  rw [← extractLsb'_one, ← h, hhigh]
  exact extractLsb'_append_low (m := 5) (n := 3) imm

theorem ofNat_toNat_self {w : Nat} (x : BitVec w) : BitVec.ofNat w x.toNat = x := by
  rw [BitVec.ofNat_toNat, BitVec.setWidth_eq]

/-- What a row accepts is well formed; it is written back to the word when the row's encoding is the word's
fields wherever the row's must-be-zero bits are 0. -/
theorem encode_of_acceptUop {n : Nat} {op idx : BitVec 4} {imm : BitVec 8} {m : Bool} {i j : Instr}
    (hop : op.toNat = n) (h : acceptUop m j = .ok i)
    (henc : m = true → encode j = .uop (packUop (BitVec.ofNat 4 n) idx imm)) :
    encode i = .uop (packUop op idx imm) ∧ i.wf = true := by
  obtain ⟨hm, hwf, rfl⟩ := (acceptUop_ok m j i).mp h
  refine ⟨?_, hwf⟩
  rw [henc hm, ← hop, ofNat_toNat_self]

/-- Encoding what the fields decode to gives the fields back: each row keeps its operand fields and checks the
rest to be 0 (R56, R66). -/
theorem encode_of_decodeFields {op idx : BitVec 4} {imm : BitVec 8} {i : Instr}
    (h : decodeFields op idx imm = .ok i) : encode i = .uop (packUop op idx imm) ∧ i.wf = true := by
  unfold decodeFields at h
  split at h
  case h_16 => cases h
  all_goals
    refine encode_of_acceptUop ‹_› h fun hm => ?_
    simp only [Bool.and_eq_true, beq_iff_eq, Bool.not_eq_true'] at hm
    simp only [encode, ofNat_toNat_self, BitVec.ofInt_toInt]
  -- the rows whose `imm` field is all operand or all zeros
  case h_1 | h_6 | h_7 => rw [hm.1, hm.2]
  case h_3 | h_4 | h_5 | h_9 | h_13 => rw [hm]
  -- the rows whose `imm` field is part operand, part zeros
  case h_8 => rw [zero_append_low_seven hm]
  case h_10 => rw [top_bit_append_low_three hm]
  case h_11 => rw [zero_append_low_three hm]
  case h_12 => rw [zero_append_low_bit hm]
  case h_14 | h_15 => rw [hm.1, zero_append_low_three hm.2]

/-- Settles O3: an event word keeps its dropped events as operands, and the fields of an operation word are
written back from what their row keeps. -/
theorem encodeOfDecodeIsIdentity : Obligations.EncodeOfDecodeIsIdentity := by
  rintro (e | w) i h
  · cases h
    exact encode_decodeEvt e
  · rw [← packUop_fields w]
    exact encode_of_decodeFields h

end Sys2Proof

/-! ### What completes and what is refused (R39, R96, R114, R117) -/

namespace Sys2Proof.Machine

theorem exec_completes {i : Instr} {s : State} (hi : indicesLegal i = true) (hc : changedAfterSample i s) :
    ∃ t, exec i s = .next t := by
  cases i with
  | evtInc | evtDec | evtRst | evtNop | nop | cntAdd | cntRst | cntRender | cmd => exact ⟨_, rfl⟩
  | tick lvl => exact ⟨_, exec_tick s lvl⟩
  | digAdd d a => exact ⟨_, exec_digAdd s d a (of_decide_eq_true hi)⟩
  | digRst d => exact ⟨_, exec_digRst s d (of_decide_eq_true hi)⟩
  | digRender d => exact ⟨_, exec_digRender s d (of_decide_eq_true hi)⟩
  | segSet d p => exact ⟨_, exec_segSet s d p (of_decide_eq_true hi)⟩
  | segGet d => exact ⟨_, exec_segGet s d (of_decide_eq_true hi)⟩
  | segBitSet d k v =>
    obtain ⟨hd, hk⟩ := Bool.and_eq_true_iff.mp hi
    exact ⟨_, exec_segBitSet s d k v (of_decide_eq_true hd) (of_decide_eq_true hk)⟩
  | segBitGet d k =>
    obtain ⟨hd, hk⟩ := Bool.and_eq_true_iff.mp hi
    exact ⟨_, exec_segBitGet s d k (of_decide_eq_true hd) (of_decide_eq_true hk)⟩
  | btnSample b level => exact ⟨_, exec_btnSample s b level (of_decide_eq_true hi)⟩
  | btnChanged b =>
    have hb : b < nbtn := of_decide_eq_true hi
    obtain ⟨c, hcur⟩ := Option.ne_none_iff_exists'.mp (hc b hb rfl)
    exact ⟨_, exec_btnChanged_sampled s b hb c hcur⟩

/-- The two indices of a segment operation: one of them is out of range. -/
theorem segmentIndices_illegal {d k : Nat} (h : (digitIndexLegal d && segmentIndexLegal k) = false) :
    ndigits ≤ d ∨ nseg ≤ k := by
  obtain hd | hk := Bool.and_eq_false_iff.mp h
  · exact .inl (Nat.not_lt.mp (of_decide_eq_false hd))
  · exact .inr (Nat.not_lt.mp (of_decide_eq_false hk))

theorem exec_illegal_index {i : Instr} (s : State) (hi : indicesLegal i = false) :
    exec i s = .refused .illegalUop := by
  cases i with
  | evtInc | evtDec | evtRst | evtNop | nop | cntAdd | cntRst | cntRender | tick | cmd => cases hi
  | digAdd d | digRst d | digRender d | segSet d | segGet d =>
    exact exec_digit_refused s _ d rfl (Nat.not_lt.mp (of_decide_eq_false hi))
  | segBitSet d k v => exact (exec_segBit_refused s v (segmentIndices_illegal hi)).left
  | segBitGet d k => exact (exec_segBit_refused s false (segmentIndices_illegal hi)).right
  | btnSample b level => exact (exec_button_refused s b level (Nat.not_lt.mp (of_decide_eq_false hi))).left
  | btnChanged b => exact (exec_button_refused s b released (Nat.not_lt.mp (of_decide_eq_false hi))).right

theorem exec_changed_before_sample {i : Instr} {s : State} (h : ¬ changedAfterSample i s) :
    exec i s = .refused .changedBeforeSample := by
  simp only [changedAfterSample, not_forall, not_not] at h
  obtain ⟨b, hb, rfl, hcur⟩ := h
  exact exec_btnChanged_unsampled s b hb hcur

/-- The three outcomes of an operation, each with its condition (R117). -/
theorem exec_outcomes (i : Instr) (s : State) :
    (∃ t, exec i s = .next t) ∨
    (exec i s = .refused .illegalUop ∧ indicesLegal i = false) ∨
    (exec i s = .refused .changedBeforeSample ∧ ¬ changedAfterSample i s) := by
  by_cases hc : changedAfterSample i s
  · cases hi : indicesLegal i with
    | true => exact .inl (exec_completes hi hc)
    | false => exact .inr (.inl ⟨exec_illegal_index s hi, rfl⟩)
  · exact .inr (.inr ⟨exec_changed_before_sample hc, hc⟩)

/-- Settles O45: one equation of the exec layer for each constructor. -/
theorem legalOperationsComplete : Obligations.LegalOperationsComplete := fun _ _ => exec_completes

/-- Settles O46: an operation with its index in range and its sample taken completes, and the other two cases
are the two refusals. -/
theorem refusalsAreTheTwoReasons : Obligations.RefusalsAreTheTwoReasons := exec_outcomes

end Sys2Proof.Machine

/-! ### A tick as one equation (R100 to R107) -/

namespace Sys2Proof.Machine

/-- The latches after a tick: both of each button at the level presented for it (R101, R102). -/
def latchesAt (lvl : LvlWord) : Vector EdgeDetector nbtn :=
  Vector.ofFn fun b => ⟨some (levelOf lvl b), some (levelOf lvl b)⟩

@[simp] theorem latchesAt_get (lvl : LvlWord) (b : Fin nbtn) :
    (latchesAt lvl)[b] = ⟨some (levelOf lvl b), some (levelOf lvl b)⟩ :=
  Vector.getElem_ofFn b.isLt

theorem eq_latchesAt_of_get {lvl : LvlWord} {btns : Vector EdgeDetector nbtn}
    (h : ∀ b : Fin nbtn, btns[b] = ⟨some (levelOf lvl b), some (levelOf lvl b)⟩) : btns = latchesAt lvl :=
  Vector.ext fun i hi => (h ⟨i, hi⟩).trans (latchesAt_get lvl ⟨i, hi⟩).symm

/-- The command a tick executes: the first press edge by priority (R102, R103). -/
def tickCommand (s : State) (lvl : LvlWord) : Command :=
  decodeCommand (eventWord (pressEdge s lvl 0) (pressEdge s lvl 1) (pressEdge s lvl 2))

/-- The state after a tick. -/
def afterTick (lvl : LvlWord) (s : State) : State :=
  State.apply { s with btns := latchesAt lvl } (tickCommand s lvl)

theorem exec_tick_eq (lvl : LvlWord) (s : State) : exec (.tick lvl) s = .next (afterTick lvl s) := exec_tick s lvl

/-! The commands of phase 4 read the digits and the flag alone -/

theorem execute_digits_congr {s t : State} (h : s.digits = t.digits) (c : Command) :
    (s.execute c).digits = (t.execute c).digits := by
  cases c with
  | inc => exact congrArg (addCounter 1) h
  | dec => exact congrArg (addCounter (-1)) h
  | rst => rfl
  | nop => exact h

theorem renderAll_segs_congr {s t : State} (h : s.digits = t.digits) : s.renderAll.segs = t.renderAll.segs := by
  simp only [State.renderAll, State.digRender, h]

/-- A render shows every digit (R107). -/
theorem renderAll_shows (s : State) : ShowsCount s.renderAll := fun d =>
  (congrArg SegmentMap.pack (s.renderAll_segs_get d d.isLt)).trans (pack_unpack _)

theorem apply_segs (s : State) (c : Command) : (s.apply c).segs =
    if s.dirty || decide (c ≠ .nop) then (s.execute c).renderAll.segs else s.segs := by
  rw [apply_eq]

/-- `ShowsCount` is about the digits and the segment registers alone. -/
theorem showsCount_of_eq {s t : State} (h : ShowsCount s) (hd : t.digits = s.digits) (hs : t.segs = s.segs) :
    ShowsCount t := by
  simpa only [ShowsCount, hd, hs] using h

/-- A command that renders leaves every display showing its digit. -/
theorem apply_shows_of_due {s : State} {c : Command} (h : (s.dirty || decide (c ≠ .nop)) = true) :
    ShowsCount (s.apply c) :=
  showsCount_of_eq (renderAll_shows (s.execute c)) (apply_digits s c) ((apply_segs s c).trans (if_pos h))

theorem apply_nop_of_clean {s : State} (h : s.dirty = false) :
    s.apply .nop = { s with result := .executed .nop false } := by
  rw [apply_eq]
  simp only [h]
  rfl

/-- Phases 4 and 5 leave the displays right when they were, or when a render is due (R32). -/
theorem apply_shows {s : State} (h : ShowsCountOrDirty s) (c : Command) : ShowsCount (s.apply c) := by
  cases hdue : s.dirty || decide (c ≠ .nop) with
  | true => exact apply_shows_of_due hdue
  | false =>
    obtain ⟨hclean, hc⟩ := Bool.or_eq_false_iff.mp hdue
    obtain rfl : c = .nop := not_not.mp (of_decide_eq_false hc)
    rw [apply_nop_of_clean hclean]
    exact h.resolve_left (Bool.eq_false_iff.mp hclean)

/-! The state after a tick -/

variable (lvl : LvlWord) (s : State)

@[simp] theorem afterTick_btns : (afterTick lvl s).btns = latchesAt lvl := apply_btns _ _

@[simp] theorem afterTick_dirty : (afterTick lvl s).dirty = false := apply_dirty _ _

@[simp] theorem afterTick_issued : (afterTick lvl s).issued = s.issued := (apply_inputs _ _).left

theorem afterTick_digits : (afterTick lvl s).digits = (s.execute (tickCommand s lvl)).digits :=
  (apply_digits _ _).trans (execute_digits_congr (by rfl) _)

theorem afterTick_result : (afterTick lvl s).result =
    .executed (tickCommand s lvl) (s.dirty || decide (tickCommand s lvl ≠ .nop)) := apply_result _ _

theorem afterTick_latches : LatchesHold lvl (afterTick lvl s) := fun b => by
  rw [afterTick_btns, latchesAt_get]

/-- What a tick leaves at its boundary, from a state with the displays right or a render due (R32). -/
theorem afterTick_settled (h : ShowsCountOrDirty s) : SettledAt lvl (afterTick lvl s) :=
  ⟨afterTick_dirty lvl s, afterTick_latches lvl s, apply_shows (s := { s with btns := latchesAt lvl }) h _⟩

end Sys2Proof.Machine

/-! ### The segment registers never flow back (R83, R146) -/

namespace Sys2Proof.Machine

/-- Phases 4 and 5 give the same digits, latches and flag whatever the displays held. -/
theorem apply_other_segs (s : State) (segs : Vector SegmentMap ndigits) (c : Command) :
    (State.apply { s with segs := segs } c).digits = (s.apply c).digits ∧
    (State.apply { s with segs := segs } c).btns = (s.apply c).btns ∧
    (State.apply { s with segs := segs } c).dirty = (s.apply c).dirty := by
  simp only [apply_digits, apply_btns, apply_dirty, and_true]
  exact execute_digits_congr (by rfl) c

theorem exec_next_other_segs {i : Instr} {s t : State} (segs : Vector SegmentMap ndigits)
    (h : exec i s = .next t) : ∃ t', exec i { s with segs := segs } = .next t' ∧
      t'.digits = t.digits ∧ t'.btns = t.btns ∧ t'.dirty = t.dirty := by
  cases exec_next h with
  | evtInc | evtDec | evtRst | evtNop | nop | cntAdd | cntRst | cntRender => exact ⟨_, rfl, rfl, rfl, rfl⟩
  | digAdd d a hd => exact ⟨_, exec_digAdd _ d a hd, rfl, rfl, rfl⟩
  | digRst d hd => exact ⟨_, exec_digRst _ d hd, rfl, rfl, rfl⟩
  | digRender d hd => exact ⟨_, exec_digRender _ d hd, rfl, rfl, rfl⟩
  | segSet d p hd => exact ⟨_, exec_segSet _ d p hd, rfl, rfl, rfl⟩
  | segGet d hd => exact ⟨_, exec_segGet _ d hd, rfl, rfl, rfl⟩
  | segBitSet d k v hd hk => exact ⟨_, exec_segBitSet _ d k v hd hk, rfl, rfl, rfl⟩
  | segBitGet d k hd hk => exact ⟨_, exec_segBitGet _ d k hd hk, rfl, rfl, rfl⟩
  | btnSample b l hb => exact ⟨_, exec_btnSample _ b l hb, rfl, rfl, rfl⟩
  | btnChanged b c hb hc => exact ⟨_, exec_btnChanged_sampled _ b hb c hc, rfl, rfl, rfl⟩
  | tick lvl =>
    rw [exec_tick_eq] at h
    rw [← Host.Outcome.next.inj h]
    exact ⟨_, exec_tick_eq lvl _, apply_other_segs { s with btns := latchesAt lvl } segs (tickCommand s lvl)⟩
  | cmd evt => exact ⟨_, exec_cmd _ evt, apply_other_segs s segs (decodeCommand evt)⟩

/-- A refusal depends on the indices and the latches only. -/
theorem exec_refused_other_segs {i : Instr} {s : State} {r : Refusal} (segs : Vector SegmentMap ndigits)
    (h : exec i s = .refused r) : exec i { s with segs := segs } = .refused r := by
  obtain ⟨t, hnext⟩ | ⟨hexec, hi⟩ | ⟨hexec, hc⟩ := exec_outcomes i s
  · cases hnext.symm.trans h
  · rw [exec_illegal_index _ hi, ← h, hexec]
  · rw [exec_changed_before_sample (s := { s with segs := segs }) hc, ← h, hexec]

/-- Settles O52: the operations that complete do so by the same equation, those refused for the same reason. -/
theorem segmentsNeverFlowBack : Obligations.SegmentsNeverFlowBack := fun _ _ segs =>
  ⟨fun _ => exec_next_other_segs segs, fun _ => exec_refused_other_segs segs⟩

end Sys2Proof.Machine

/-! ### What each operation writes, field by field (R18, R20, R23, R24) -/

namespace Sys2Proof.Machine

variable {i : Instr} {s t : State}

/-- The inputs are no operation's to write. -/
theorem exec_inputs (h : exec i s = .next t) : t.issued = s.issued ∧ t.draws = s.draws := by
  cases exec_next h with
  | tick lvl c btns => exact apply_inputs { s with btns := btns } c
  | cmd evt => exact apply_inputs s _
  | _ => exact ⟨rfl, rfl⟩

/-- A register of a tuple after a write: the new value, or it is another register. -/
theorem vector_set_get {α : Type} {n : Nat} (v : Vector α n) (j b : Fin n) (x : α) :
    (v.set j.val x j.isLt)[b] = if j = b then x else v[b] := by
  simp only [Fin.getElem_fin, Vector.getElem_set, Fin.ext_iff]

/-- How the latches of a button can move: not at all, by a sample or a `BTN.CHANGED` of that very button, or to
the level a tick presents (R23, R91). -/
theorem exec_latches (h : exec i s = .next t) (b : Fin nbtn) :
    t.btns[b] = s.btns[b] ∨
    (∃ l, i = .btnSample b.val l ∧ t.btns[b] = (s.btns[b]).sample l) ∨
    (i = .btnChanged b.val ∧ t.btns[b] = (s.btns[b]).consume) ∨
    ∃ lvl, i = .tick lvl ∧ t.btns[b] = ⟨some (levelOf lvl b), some (levelOf lvl b)⟩ := by
  cases exec_next h with
  | btnSample j l hj =>
    have hset := vector_set_get s.btns ⟨j, hj⟩ b ((s.btns[j]).sample l)
    by_cases hb : (⟨j, hj⟩ : Fin nbtn) = b
    · subst hb
      exact .inr (.inl ⟨l, rfl, hset.trans (if_pos rfl)⟩)
    · exact .inl (hset.trans (if_neg hb))
  | btnChanged j c hj =>
    have hset := vector_set_get s.btns ⟨j, hj⟩ b (s.btns[j]).consume
    by_cases hb : (⟨j, hj⟩ : Fin nbtn) = b
    · subst hb
      exact .inr (.inr (.inl ⟨rfl, hset.trans (if_pos rfl)⟩))
    · exact .inl (hset.trans (if_neg hb))
  | tick lvl c btns hbtns => exact .inr (.inr (.inr ⟨lvl, rfl, by rw [apply_btns]; exact hbtns b⟩))
  | cmd evt => exact .inl (by rw [apply_btns])
  | _ => exact .inl rfl

/-- What becomes of the flag: it stays, an event row sets it, or the operation is a tick or `CMD`, whose phases 4
and 5 start from the same flag (R24). -/
theorem exec_dirty (h : exec i s = .next t) :
    t.dirty = s.dirty ∨
    (t.dirty = true ∧ ((∃ dec rst, i = .evtInc dec rst) ∨ (∃ rst, i = .evtDec rst) ∨ i = .evtRst)) ∨
    (((∃ lvl, i = .tick lvl) ∨ ∃ evt, i = .cmd evt) ∧
      ∃ (u : State) (c : Command), u.dirty = s.dirty ∧ t = u.apply c) := by
  cases exec_next h with
  | evtInc dec rst => exact .inr (.inl ⟨rfl, .inl ⟨dec, rst, rfl⟩⟩)
  | evtDec rst => exact .inr (.inl ⟨rfl, .inr (.inl ⟨rst, rfl⟩)⟩)
  | evtRst => exact .inr (.inl ⟨rfl, .inr (.inr rfl)⟩)
  | tick lvl c btns => exact .inr (.inr ⟨.inl ⟨lvl, rfl⟩, { s with btns := btns }, c, rfl, rfl⟩)
  | cmd evt => exact .inr (.inr ⟨.inr ⟨evt, rfl⟩, s, _, rfl, rfl⟩)
  | _ => exact .inl rfl

/-- A segment write that is not of display `d` leaves its outputs. -/
theorem pin_writeSegs_other (s : State) {j d : Fin ndigits} (m : SegmentMap) (k : Fin nseg) (h : j ≠ d) :
    (s.writeSegs j m).pin d k = s.pin d k :=
  congrArg (SegmentMap.get · k) ((vector_set_get s.segs j d m).trans (if_neg h))

theorem pin_writeSegs_same (s : State) (d : Fin ndigits) (m : SegmentMap) (k : Fin nseg) :
    (s.writeSegs d m).pin d k = m.get k :=
  congrArg (SegmentMap.get · k) ((vector_set_get s.segs d d m).trans (if_pos rfl))

/-- Phases 4 and 5 leave the outputs, or return `rendered = true` (R107, R113). -/
theorem apply_pin_or_rendered (s : State) (c : Command) :
    (∀ d k, (s.apply c).pin d k = s.pin d k) ∨ (s.apply c).result = .executed c true := by
  cases hdue : s.dirty || decide (c ≠ .nop) with
  | true => exact .inr (by rw [apply_result, hdue])
  | false =>
    refine .inl fun d k => ?_
    simp only [State.pin, apply_segs, hdue, Bool.false_eq_true, if_false]

/-- Settles O47: the other operations leave the digits as they are. -/
theorem onlyCountingWritesDigits : Obligations.OnlyCountingWritesDigits := by
  intro i s t h hne
  cases exec_next h with
  | evtInc | evtDec | evtRst | digAdd | digRst | cntAdd | cntRst | tick | cmd => simp
  | _ => exact absurd rfl hne

/-- Settles O48: a write to one display, or to one register of it, leaves the other outputs, and phases 4 and 5
write an output only in a render. -/
theorem onlySegmentWritesChangeOutputs : Obligations.OnlySegmentWritesChangeOutputs := by
  intro i s t d k h hne
  cases exec_next h with
  | segSet j p hj =>
    obtain rfl : (⟨j, hj⟩ : Fin ndigits) = d := by
      by_contra hjd
      exact hne (pin_writeSegs_other s _ k hjd)
    exact .inl ⟨p, rfl⟩
  | segBitSet j l v hj hl =>
    obtain rfl : (⟨j, hj⟩ : Fin ndigits) = d := by
      by_contra hjd
      exact hne (pin_writeSegs_other s _ k hjd)
    have hpin := pin_writeSegs_same s ⟨j, hj⟩ ((s.segs[j]).set ⟨l, hl⟩ v) k
    obtain rfl : k = ⟨l, hl⟩ := by
      by_contra hkl
      exact hne (hpin.trans (get_set_other _ k _ v hkl))
    exact .inr (.inl ⟨v, rfl, hpin.trans (get_set_same _ _ v)⟩)
  | tick lvl c btns =>
    obtain hpin | hren := apply_pin_or_rendered { s with btns := btns } c
    · exact absurd (hpin d k) hne
    · exact .inr (.inr ⟨.inl ⟨lvl, rfl⟩, c, hren⟩)
  | cmd evt =>
    obtain hpin | hren := apply_pin_or_rendered s (decodeCommand evt)
    · exact absurd (hpin d k) hne
    · exact .inr (.inr ⟨.inr ⟨evt, rfl⟩, _, hren⟩)
  | evtInc | evtDec | evtRst => exact absurd (by simp [State.pin]) hne
  | _ => exact absurd rfl hne

/-- Settles O49: `exec_latches`, where the change consumed leaves `cur`. -/
theorem onlySamplingWritesLatches : Obligations.OnlySamplingWritesLatches := by
  intro i s t b h hne
  obtain hsame | ⟨l, hi, -⟩ | ⟨hi, hconsumed⟩ | ⟨lvl, hi, -⟩ := exec_latches h b
  · exact absurd hsame hne
  · exact .inl ⟨l, hi⟩
  · exact .inr (.inl ⟨hi, by rw [hconsumed, EdgeDetector.consume_cur]⟩)
  · exact .inr (.inr ⟨lvl, hi⟩)

/-- Settles O50: `exec_dirty`, read once for each direction of the change. -/
theorem dirtyIsSetByCommandsClearedByRender : Obligations.DirtyIsSetByCommandsClearedByRender := by
  intro i s t h
  obtain hsame | ⟨hset, hevt⟩ | ⟨hcmd, u, c, -, rfl⟩ := exec_dirty h
  · exact ⟨fun hs ht => (nomatch hs.symm.trans (hsame.symm.trans ht)),
      fun hs ht => nomatch hs.symm.trans (hsame.symm.trans ht)⟩
  · exact ⟨fun _ _ => hevt, fun _ ht => nomatch hset.symm.trans ht⟩
  · exact ⟨fun _ ht => (nomatch (apply_dirty u c).symm.trans ht), fun _ _ => hcmd⟩

/-- Settles O51: no record update of an operation names either field. -/
theorem operationsLeaveTheInputsAlone : Obligations.OperationsLeaveTheInputsAlone := fun _ _ _ => exec_inputs

end Sys2Proof.Machine

/-! ### What every step keeps (R22, R24) -/

namespace Sys2Proof.Machine

/-- A step is one operation that some operation word spells, executed with the inputs moved on; or, after a
failed read, nothing. -/
theorem step_is_exec {s t : State} (h : step s = .next t) :
    t = s ∨ ∃ i issued draws, exec i { s with issued := issued, draws := draws } = .next t ∧
      ∃ w, encode i = .uop w := by
  obtain ⟨u, rest, i, -, hdec, hexec⟩ | ⟨e, rest, -, hexec⟩ | ⟨lvl, -, -, hexec⟩ | ⟨-, -, rfl⟩ :=
    step_next h
  · exact .inr ⟨i, rest, s.draws, hexec, u, (encodeOfDecodeIsIdentity (.uop u) i hdec).left⟩
  · exact .inr ⟨.cmd e, rest, s.draws, hexec, _, rfl⟩
  · exact .inr ⟨.tick lvl, s.issued, s.draws + 1, hexec, _, rfl⟩
  · exact .inl rfl

/-- A detector's latches are legal: without a current sample there is no earlier one (R22). -/
def LegalLatch (e : EdgeDetector) : Prop := e.cur = none → e.prev = none

theorem legalLatch_sample (e : EdgeDetector) (l : Level) : LegalLatch (e.sample l) := nofun

theorem legalLatch_consume (e : EdgeDetector) : LegalLatch e.consume := id

theorem state_eq_sampled_iff (e : EdgeDetector) : e.state = .sampled ↔ e.cur ≠ none := by
  obtain ⟨prev, cur⟩ := e
  cases cur <;> simp [EdgeDetector.state]

/-- An operation keeps a detector's latches legal and does not lose its sample. -/
theorem exec_keeps_latch {i : Instr} {s t : State} (h : exec i s = .next t) (b : Fin nbtn) :
    (LegalLatch s.btns[b] → LegalLatch t.btns[b]) ∧ ((s.btns[b]).cur ≠ none → (t.btns[b]).cur ≠ none) := by
  obtain hb | ⟨l, -, hb⟩ | ⟨-, hb⟩ | ⟨lvl, -, hb⟩ := exec_latches h b <;> rw [hb]
  · exact ⟨id, id⟩
  · exact ⟨fun _ => legalLatch_sample _ l, fun _ => nofun⟩
  · exact ⟨fun _ => legalLatch_consume _, id⟩
  · exact ⟨fun _ => nofun, fun _ => nofun⟩

/-- Settles O54: each way the latches of a button can move keeps them legal, and none takes a sample away. -/
theorem stepKeepsLatchesLegal : Obligations.StepKeepsLatchesLegal := by
  intro s t hlegal h
  obtain rfl | ⟨i, issued, draws, hexec, -⟩ := step_is_exec h
  · exact ⟨hlegal, fun _ => id⟩
  · refine ⟨fun b => (exec_keeps_latch hexec b).left (hlegal b), fun b => ?_⟩
    rw [state_eq_sampled_iff, state_eq_sampled_iff]
    exact (exec_keeps_latch hexec b).right

/-- Settles O57: an event row, the only operation that leaves the flag set, is spelled by no operation word; and
phases 4 and 5 from a set flag render. -/
theorem stepNeverLeavesARenderDue : Obligations.StepNeverLeavesARenderDue := by
  intro s t h
  obtain rfl | ⟨i, issued, draws, hexec, w, hw⟩ := step_is_exec h
  · exact ⟨id, fun hset hclear => nomatch hset.symm.trans hclear⟩
  obtain hsame | ⟨-, hevt⟩ | ⟨-, u, c, hu, rfl⟩ := exec_dirty hexec
  · exact ⟨hsame.trans, fun hset hclear => nomatch hset.symm.trans (hsame.symm.trans hclear)⟩
  · obtain ⟨dec, rst, rfl⟩ | ⟨rst, rfl⟩ | rfl := hevt <;> cases hw
  · refine ⟨fun _ => apply_dirty u c, fun hset _ => ?_⟩
    have hdue : (u.dirty || decide (c ≠ .nop)) = true := by rw [hu, hset, Bool.true_or]
    exact ⟨apply_shows_of_due hdue, c, by rw [apply_result, hdue]⟩

end Sys2Proof.Machine

/-! ### Normal operation (R32) -/

namespace Sys2Proof.Machine

theorem encode_tick_injective {l l' : LvlWord} (h : encode (.tick l) = encode (.tick l')) : l = l' := by
  have hdec := congrArg decode h
  rw [decodeOfEncodeIsIdentity _ rfl, decodeOfEncodeIsIdentity _ rfl] at hdec
  cases hdec
  rfl

/-- A tick word at the head of the queue: one tick with its levels. -/
theorem step_tick_word {s : State} {lvl : LvlWord} {rest : List OpWord}
    (hs : s.issued = encode (.tick lvl) :: rest) :
    step s = .next (afterTick lvl { s with issued := rest }) := by
  rw [step_uop s _ rest _ hs (decodeOfEncodeIsIdentity (.tick lvl) rfl), exec_tick_eq]

/-- Settles O55: whether its levels come from the queue or from the environment, a tick ends settled at them. -/
theorem tickingStepsEndSettled : Obligations.TickingStepsEndSettled := by
  intro s hticks hshows
  cases hs : s.issued with
  | cons w rest =>
    obtain ⟨lvl, rfl⟩ := hticks w (by simp [hs])
    have hsettled := afterTick_settled lvl { s with issued := rest } hshows
    refine ⟨_, step_tick_word hs, fun lvl' rest' hq => ?_, nofun, fun w hw => ?_, .inr hsettled.2.2⟩
    · obtain ⟨hword, -⟩ := List.cons.inj hq
      rwa [← encode_tick_injective hword]
    · rw [afterTick_issued] at hw
      exact hticks w (by simp [hs, hw])
  | nil =>
    cases he : Config.environment s.draws with
    | none => exact ⟨s, step_stuck s hs he, nofun, fun _ => .inr ⟨rfl, rfl⟩, hticks, hshows⟩
    | some lvl =>
      have hsettled := afterTick_settled lvl { s with draws := s.draws + 1 } hshows
      refine ⟨_, (step_poll s lvl hs he).trans (exec_tick_eq lvl _), nofun, fun _ => .inl ⟨lvl, rfl, hsettled⟩,
        fun w hw => ?_, .inr hsettled.2.2⟩
      rw [afterTick_issued] at hw
      exact hticks w hw

end Sys2Proof.Machine

/-! ### The software chain (R102) -/

namespace Sys2Proof.Machine

/-- The priority of R53 on a word made of three events. -/
theorem decodeCommand_eventWord (inc dec rst : Bool) : decodeCommand (eventWord inc dec rst) =
    if inc then .inc else if dec then .dec else if rst then .rst else .nop := by
  revert inc dec rst
  decide

/-- The latches after the chain: `prev` is consumed up to the first match only. -/
def softwareLatches (e0 e1 e2 : EdgeDetector) : Vector EdgeDetector nbtn :=
  if e0.event then #v[e0.consume, e1, e2]
  else if e1.event then #v[e0.consume, e1.consume, e2]
  else #v[e0.consume, e1.consume, e2.consume]

theorem softwareLatches_cur (e0 e1 e2 : EdgeDetector) (b : Fin nbtn) :
    ((softwareLatches e0 e1 e2)[b]).cur = ((#v[e0, e1, e2] : Vector EdgeDetector nbtn)[b]).cur := by
  unfold softwareLatches
  split_ifs <;> fin_cases b <;> rfl

/-- The chain finds the command of the three events and writes the latches only. -/
theorem softwareEvents_eq (s : State) (e0 e1 e2 : EdgeDetector) (h : s.btns = #v[e0, e1, e2]) :
    softwareEvents s = (decodeCommand (eventWord e0.event e1.event e2.event),
      { s with btns := softwareLatches e0 e1 e2 }) := by
  obtain ⟨digits, segs, btns, dirty, result, issued, draws⟩ := s
  subst h
  rw [decodeCommand_eventWord, softwareLatches]
  change (if e0.event then _ else if e1.event then _ else if e2.event then _ else _) = _
  split_ifs <;> rfl

/-- A software tick is the tick's command on latches that agree with the tick's but for `prev`. -/
theorem softwareTick_eq (lvl : LvlWord) (s : State) : ∃ btns : Vector EdgeDetector nbtn,
    softwareTick lvl s = State.apply { s with btns := btns } (tickCommand s lvl) ∧
    ∀ b : Fin nbtn, (btns[b]).cur = some (levelOf lvl b) := by
  refine ⟨softwareLatches ((s.btns[0]).sample (levelOf lvl 0)) ((s.btns[1]).sample (levelOf lvl 1))
    ((s.btns[2]).sample (levelOf lvl 2)), ?_, fun b => (softwareLatches_cur _ _ _ b).trans ?_⟩
  · rw [softwareTick, softwareEvents_eq _ _ _ _ (samplePhase_btns s lvl), event_sample, event_sample,
      event_sample]
    rfl
  · fin_cases b <;> rfl

/-- The press edges, so the command, read the newest samples only. -/
theorem tickCommand_congr {s t : State} (h : ∀ b : Fin nbtn, (s.btns[b]).cur = (t.btns[b]).cur) (lvl : LvlWord) :
    tickCommand s lvl = tickCommand t lvl := by
  have hedge : ∀ b : Fin nbtn, pressEdge s lvl b = pressEdge t lvl b := fun b => by
    rw [pressEdge, pressEdge, h b]
  rw [tickCommand, tickCommand, hedge, hedge, hedge]

/-- Phases 4 and 5 read no `prev` latch. -/
theorem apply_agree {s t : State} (h : AgreeButPrev s t) (c : Command) : AgreeButPrev (s.apply c) (t.apply c) where
  digits := by
    rw [apply_digits, apply_digits]
    exact execute_digits_congr h.digits c
  segs := by
    rw [apply_segs, apply_segs, h.dirty, h.segs, renderAll_segs_congr (execute_digits_congr h.digits c)]
  cur := by
    rw [apply_btns, apply_btns]
    exact h.cur
  dirty := by rw [apply_dirty, apply_dirty]
  result := by rw [apply_result, apply_result, h.dirty]
  issued := (apply_inputs s c).left.trans (h.issued.trans (apply_inputs t c).left.symm)
  draws := (apply_inputs s c).right.trans (h.draws.trans (apply_inputs t c).right.symm)

/-- The simulation step: states that agree but for `prev` agree again after a tick of either kind. -/
theorem tick_agrees_softwareTick {s t : State} (h : AgreeButPrev s t) (lvl : LvlWord) :
    AgreeButPrev (afterTick lvl s) (softwareTick lvl t) := by
  obtain ⟨btns, hsoft, hcur⟩ := softwareTick_eq lvl t
  rw [hsoft, ← tickCommand_congr h.cur lvl]
  have hlatches : AgreeButPrev { s with btns := latchesAt lvl } { t with btns := btns } :=
    ⟨h.digits, h.segs, fun b => by rw [hcur b, latchesAt_get], h.dirty, h.result, h.issued, h.draws⟩
  exact apply_agree hlatches _

theorem ticks_agree_softwareTicks (lvls : List LvlWord) {s t : State} (h : AgreeButPrev s t) :
    AgreeButPrev (lvls.foldl (fun u lvl => afterTick lvl u) s)
      (lvls.foldl (fun u lvl => softwareTick lvl u) t) := by
  induction lvls generalizing s t with
  | nil => exact h
  | cons lvl lvls ih => exact ih (tick_agrees_softwareTick h lvl)

/-- Settles O56: every tick of the sequence completes, and the simulation step holds along it, from a state that
agrees with itself. -/
theorem softwareChainIsUnobservable : Obligations.SoftwareChainIsUnobservable := by
  intro lvls s
  refine ⟨lvls.foldl (fun u lvl => afterTick lvl u) s, ?_,
    ticks_agree_softwareTicks lvls ⟨rfl, rfl, fun _ => rfl, rfl, rfl, rfl, rfl⟩⟩
  simp only [exec_tick_eq]
  induction lvls generalizing s with
  | nil => rfl
  | cons lvl lvls ih => exact ih (afterTick lvl s)

end Sys2Proof.Machine

/-! ### Words and rows (R56, R59, R61, R62) -/

namespace Sys2Proof

/-- Matching a row, field by field, for any row. -/
theorem matchesWord_pack_iff (r : UopRow) (op idx : BitVec 4) (imm : BitVec 8) :
    r.matchesWord (packUop op idx imm) = true ↔ op &&& opField r.mask = opField r.bits ∧
      idx &&& idxField r.mask = idxField r.bits ∧ imm &&& immField r.mask = immField r.bits :=
  matchesWord_pack r op idx _ _ _ _ imm _ _ (packUop_fields r.mask).symm (packUop_fields r.bits).symm

/-- Bits a mask requires to be 0 are 0 in every field the mask covers. -/
theorem extractLsb'_eq_zero_of_and {imm mask : BitVec 8} {start len : Nat} (h : imm &&& mask = 0#8)
    (hmask : mask.extractLsb' start len = BitVec.allOnes len) : imm.extractLsb' start len = 0#len := by
  have hfield := congrArg (BitVec.extractLsb' start len) h
  rw [BitVec.extractLsb'_and, hmask, BitVec.and_allOnes] at hfield
  simpa using hfield

theorem top_bit_clear {imm : BitVec 8} (h : imm &&& 128#8 = 0#8) : (!imm.getLsbD 7) = true := by
  have hbit := congrArg (BitVec.getLsbD · 7) h
  simpa using hbit

theorem amountFits_toInt (imm : BitVec 8) : amountFits imm.toInt = true :=
  (amountFits_iff _).mpr ⟨imm.le_toInt, Int.le_of_lt_add_one imm.toInt_lt⟩

theorem and_mask_four (x : BitVec 4) : x &&& 15#4 = x := BitVec.and_allOnes

theorem and_mask_eight (x : BitVec 8) : x &&& 255#8 = x := BitVec.and_allOnes

theorem acceptUop_of_legal {m : Bool} {i : Instr} (hm : m = true) (hwf : i.wf = true) :
    acceptUop m i = .ok i :=
  (acceptUop_ok m i i).mpr ⟨hm, hwf, rfl⟩

/-- Where a row matches, its arm of the decoder accepts: the mask is the arm's must-be-zero check, and the row's
ranges are those of the operands (R56, R59, R61). -/
theorem decodeFields_of_row {r : UopRow} (hr : r ∈ uopRows) {op idx : BitVec 4} {imm : BitVec 8}
    (hmatch : r.matchesWord (packUop op idx imm) = true) (hrange : r.inRange (packUop op idx imm) = true) :
    ∃ i, decodeFields op idx imm = .ok i ∧ i.mnemonic = r.mnemonic := by
  rw [matchesWord_pack_iff] at hmatch
  rw [UopRow.inRange, idxField_pack, Laws.EncodesInItsRow.segment_field] at hrange
  simp only [uopRows, List.cons_append, List.nil_append, List.mem_cons, List.not_mem_nil, or_false] at hr
  obtain rfl | rfl | rfl | rfl | rfl | rfl | rfl | rfl | rfl | rfl | rfl | rfl | rfl | rfl | rfl := hr
  all_goals
    simp only [opField, idxField, immField, BitVec.reduceExtractLsb', BitVec.extractLsb'_zero, and_mask_four,
      and_mask_eight, BitVec.and_zero, true_and, and_true] at hmatch
    simp only [Bool.not_false, Bool.true_or, Bool.and_true] at hrange
  · obtain ⟨rfl, rfl, rfl⟩ := hmatch
    exact ⟨.nop, rfl, rfl⟩
  · subst hmatch
    exact ⟨.digAdd idx.toNat imm.toInt,
      acceptUop_of_legal rfl (Bool.and_eq_true_iff.mpr ⟨hrange, amountFits_toInt imm⟩), rfl⟩
  · obtain ⟨rfl, rfl⟩ := hmatch
    exact ⟨.digRst idx.toNat, acceptUop_of_legal rfl hrange, rfl⟩
  · obtain ⟨rfl, rfl⟩ := hmatch
    exact ⟨.digRender idx.toNat, acceptUop_of_legal rfl hrange, rfl⟩
  · obtain ⟨rfl, rfl⟩ := hmatch
    exact ⟨.cntAdd imm.toInt, acceptUop_of_legal rfl (amountFits_toInt imm), rfl⟩
  · obtain ⟨rfl, rfl, rfl⟩ := hmatch
    exact ⟨.cntRst, rfl, rfl⟩
  · obtain ⟨rfl, rfl, rfl⟩ := hmatch
    exact ⟨.cntRender, rfl, rfl⟩
  · obtain ⟨rfl, himm⟩ := hmatch
    exact ⟨.segSet idx.toNat (imm.extractLsb' 0 7), acceptUop_of_legal (top_bit_clear himm) hrange, rfl⟩
  · obtain ⟨rfl, rfl⟩ := hmatch
    exact ⟨.segGet idx.toNat, acceptUop_of_legal rfl hrange, rfl⟩
  · obtain ⟨rfl, himm⟩ := hmatch
    exact ⟨.segBitSet idx.toNat (imm.extractLsb' 0 3).toNat (imm.getLsbD 7),
      acceptUop_of_legal (beq_iff_eq.mpr (extractLsb'_eq_zero_of_and himm rfl)) hrange, rfl⟩
  · obtain ⟨rfl, himm⟩ := hmatch
    exact ⟨.segBitGet idx.toNat (imm.extractLsb' 0 3).toNat,
      acceptUop_of_legal (beq_iff_eq.mpr (extractLsb'_eq_zero_of_and himm rfl)) hrange, rfl⟩
  · obtain ⟨rfl, himm⟩ := hmatch
    exact ⟨.btnSample idx.toNat (imm.getLsbD 0),
      acceptUop_of_legal (beq_iff_eq.mpr (extractLsb'_eq_zero_of_and himm rfl)) hrange, rfl⟩
  · obtain ⟨rfl, rfl⟩ := hmatch
    exact ⟨.btnChanged idx.toNat, acceptUop_of_legal rfl hrange, rfl⟩
  · obtain ⟨rfl, rfl, himm⟩ := hmatch
    exact ⟨.tick (imm.extractLsb' 0 3),
      acceptUop_of_legal (beq_iff_eq.mpr (extractLsb'_eq_zero_of_and himm rfl)) rfl, rfl⟩
  · obtain ⟨rfl, rfl, himm⟩ := hmatch
    exact ⟨.cmd (imm.extractLsb' 0 3),
      acceptUop_of_legal (beq_iff_eq.mpr (extractLsb'_eq_zero_of_and himm rfl)) rfl, rfl⟩

theorem acceptUop_error {m : Bool} {i : Instr} {e : DecodeError} (h : acceptUop m i = .error e) :
    e = .illegalUop := by
  unfold acceptUop at h
  split at h <;> cases h
  rfl

/-- The decoder refuses by one name (R62). -/
theorem decodeFields_error {op idx : BitVec 4} {imm : BitVec 8} {e : DecodeError}
    (h : decodeFields op idx imm = .error e) : e = .illegalUop := by
  unfold decodeFields at h
  split at h
  case h_16 =>
    cases h
    rfl
  all_goals exact acceptUop_error h

theorem encodesInItsRow (i : Instr) : Laws.EncodesInItsRow.Statement i := by
  cases i with
  | evtInc dec rst => exact Laws.EncodesInItsRow.evtInc dec rst
  | evtDec rst => exact Laws.EncodesInItsRow.evtDec rst
  | evtRst => exact Laws.EncodesInItsRow.evtRst
  | evtNop => exact Laws.EncodesInItsRow.evtNop
  | nop => exact Laws.EncodesInItsRow.nop
  | digAdd d a => exact Laws.EncodesInItsRow.digAdd d a
  | digRst d => exact Laws.EncodesInItsRow.digRst d
  | digRender d => exact Laws.EncodesInItsRow.digRender d
  | cntAdd a => exact Laws.EncodesInItsRow.cntAdd a
  | cntRst => exact Laws.EncodesInItsRow.cntRst
  | cntRender => exact Laws.EncodesInItsRow.cntRender
  | segSet d p => exact Laws.EncodesInItsRow.segSet d p
  | segGet d => exact Laws.EncodesInItsRow.segGet d
  | segBitSet d k v => exact Laws.EncodesInItsRow.segBitSet d k v
  | segBitGet d k => exact Laws.EncodesInItsRow.segBitGet d k
  | btnSample b l => exact Laws.EncodesInItsRow.btnSample b l
  | btnChanged b => exact Laws.EncodesInItsRow.btnChanged b
  | tick lvl => exact Laws.EncodesInItsRow.tick lvl
  | cmd evt => exact Laws.EncodesInItsRow.cmd evt

/-- A word that decodes passes for the row of the operation it decodes to. -/
theorem row_of_decodeUop {w : UopWord} {i : Instr} (h : decodeUop w = .ok i) :
    ∃ r ∈ uopRows, r.matchesWord w = true ∧ r.inRange w = true := by
  obtain ⟨henc, hwf⟩ := encodeOfDecodeIsIdentity (.uop w) i h
  have hrow := encodesInItsRow i hwf
  rw [henc] at hrow
  obtain ⟨r, hr, -, hmatch, hrange⟩ := hrow
  exact ⟨r, hr, hmatch, hrange⟩

/-- Settles O4: a matched row's arm accepts; and a word that decodes is its operation's encoding, which passes for
a row. -/
theorem uopWordLegalIffItMatchesARow : Obligations.UopWordLegalIffItMatchesARow := by
  intro w
  constructor
  · intro r hr hmatch hrange
    rw [← packUop_fields w] at hmatch hrange
    exact decodeFields_of_row hr hmatch hrange
  · intro hnone
    cases h : decodeUop w with
    | error e => rw [decodeFields_error h]
    | ok i =>
      obtain ⟨r, hr, hmatch, hrange⟩ := row_of_decodeUop h
      cases (hnone r hr hmatch).symm.trans hrange

end Sys2Proof

/-! ### The ripple on runs, up and down (R78, R79, R82) -/

namespace Sys2Proof.Machine

theorem ripple_up_nine (ds : List Digit) : ripple 1 1 (9 :: ds) = 0 :: ripple 1 1 ds :=
  ripple_cons_wrap 1 1 9 ds (by decide)

theorem ripple_down_zero (ds : List Digit) : ripple (-1) (-1) (0 :: ds) = 9 :: ripple (-1) (-1) ds :=
  ripple_cons_wrap (-1) (-1) 0 ds (by decide)

/-- A sum that is a digit is written without a ripple. -/
theorem ripple_cons_of_sum (u : Int) {a : Int} {d e : Digit} (ds : List Digit) (h : (d.val : Int) + a = e.val) :
    ripple u a (d :: ds) = e :: ds := by
  have hstop : didWrap d a = false := by
    rw [Bool.eq_false_iff, Ne, didWrap_iff]
    omega
  rw [ripple_cons_stop u a d ds hstop, fmod10_eq_of_dvd (digitSum d a) e (by rw [digitSum, h]; simp)]

/-- Above a run of 9s the ripple goes on as if it began there (R76). -/
theorem ripple_up_run (k : Nat) (ds : List Digit) :
    ripple 1 1 (List.replicate k 9 ++ ds) = List.replicate k 0 ++ ripple 1 1 ds := by
  induction k with
  | zero => rfl
  | succ k ih => rw [List.replicate_succ, List.cons_append, ripple_up_nine, ih]; rfl

theorem ripple_down_run (k : Nat) (ds : List Digit) :
    ripple (-1) (-1) (List.replicate k 0 ++ ds) = List.replicate k 9 ++ ripple (-1) (-1) ds := by
  induction k with
  | zero => rfl
  | succ k ih => rw [List.replicate_succ, List.cons_append, ripple_down_zero, ih]; rfl

/-- Settles O18: the induction is `counterValue_ripple`'s. -/
theorem rippleIsExactForSmallAmounts : Obligations.RippleIsExactForSmallAmounts := counterValue_ripple

/-- Settles O20: the run is passed digit by digit, and the digit after it, where there is one, takes the unit. -/
theorem rippleTouchesTheLowestRun : Obligations.RippleTouchesTheLowestRun := by
  refine ⟨fun k d e ds h => ⟨?_, ?_⟩, fun k => ⟨?_, ?_⟩⟩
  · rw [ripple_up_run, ripple_cons_of_sum 1 ds (e := e) (by omega)]
  · rw [ripple_down_run, ripple_cons_of_sum (-1) ds (e := d) (by omega)]
  · simpa [ripple] using ripple_up_run k []
  · simpa [ripple] using ripple_down_run k []

/-- One up adds 1 to the value, modulo `10^N`. -/
theorem counterValue_up (ds : List Digit) :
    (counterValue (ripple 1 1 ds) : Int) = (counterValue ds + 1) % (10 : Int) ^ ds.length :=
  counterValue_ripple ds 1 (by decide) (by decide)

theorem counterValue_down (ds : List Digit) :
    (counterValue (ripple (-1) (-1) ds) : Int) = (counterValue ds + -1) % (10 : Int) ^ ds.length := by
  have hunit : unit (-1) = -1 := if_neg (by decide)
  simpa only [hunit] using counterValue_ripple ds (-1) (by decide) (by decide)

theorem length_iterate_up (k : Nat) (ds : List Digit) : ((ripple 1 1)^[k] ds).length = ds.length := by
  induction k with
  | zero => rfl
  | succ k ih => rw [Function.iterate_succ_apply', length_ripple, ih]

theorem counterValue_iterate_up (k : Nat) (ds : List Digit) :
    (counterValue ((ripple 1 1)^[k] ds) : Int) = (counterValue ds + k) % (10 : Int) ^ ds.length := by
  induction k with
  | zero =>
    have hlt : (counterValue ds : Int) < 10 ^ ds.length := by exact_mod_cast counterValue_lt ds
    simp [Int.emod_eq_of_lt (Int.natCast_nonneg _) hlt]
  | succ k ih =>
    rw [Function.iterate_succ_apply', counterValue_up, length_iterate_up, ih, Int.emod_add_emod, Nat.cast_succ,
      add_assoc]

/-- A counter with the length of `ds` and its value modulo `10^N` is `ds` (R17). -/
theorem eq_of_counterValue_emod {ds es : List Digit} (hlen : es.length = ds.length)
    (hval : (counterValue es : Int) = counterValue ds % (10 : Int) ^ ds.length) : es = ds := by
  have hlt : (counterValue ds : Int) < 10 ^ ds.length := by exact_mod_cast counterValue_lt ds
  rw [Int.emod_eq_of_lt (Int.natCast_nonneg _) hlt] at hval
  exact counterValue_injective es ds hlen (Int.ofNat_inj.mp hval)

/-- Settles O21: the digits are determined by the value, which comes back. -/
theorem countingUpIsUndoneAndCycles : Obligations.CountingUpIsUndoneAndCycles := by
  refine fun ds => ⟨eq_of_counterValue_emod (by simp [length_ripple]) ?_,
    eq_of_counterValue_emod (by simp [length_ripple]) ?_, eq_of_counterValue_emod (length_iterate_up _ ds) ?_⟩
  · rw [counterValue_down, counterValue_up, length_ripple, Int.emod_add_emod, add_neg_cancel_right]
  · rw [counterValue_up, counterValue_down, length_ripple, Int.emod_add_emod, neg_add_cancel_right]
  · rw [counterValue_iterate_up]
    push_cast
    rw [Int.add_emod_right]

end Sys2Proof.Machine

/-! ### Segment round trip (R88) -/

namespace Sys2Proof.Machine

theorem segs_writeSegs_same (s : State) (d : Fin ndigits) (m : SegmentMap) : (s.writeSegs d m).segs[d] = m :=
  (vector_set_get s.segs d d m).trans (if_pos rfl)

/-- Writing back what a display holds changes nothing. -/
theorem writeSegs_self (s : State) (d : Fin ndigits) : s.writeSegs d s.segs[d] = s := by
  simp [State.writeSegs]

/-- Settles O28: packing and unpacking are inverse, and the display read is the one written. -/
theorem segmentRoundTrip : Obligations.SegmentRoundTrip := by
  intro s d h
  refine ⟨fun p => ⟨_, exec_segSet s d p h, ?_, fun k hk => ?_⟩, (s.segs[d]).pack, exec_segGet s d h, ?_⟩
  · have hread := segs_writeSegs_same s ⟨d, h⟩ (SegmentMap.unpack p)
    rw [exec_segGet _ d h, State.ret_segs]
    exact congrArg (fun m => Host.Outcome.next (State.ret _ (.pattern m)))
      ((congrArg SegmentMap.pack hread).trans (pack_unpack p))
  · have hread := segs_writeSegs_same s ⟨d, h⟩ (SegmentMap.unpack p)
    rw [exec_segBitGet _ d k h hk, State.ret_segs]
    exact congrArg (fun v => Host.Outcome.next (State.ret _ (.segment v)))
      ((congrArg (SegmentMap.get · ⟨k, hk⟩) hread).trans (unpack_get p ⟨k, hk⟩))
  · rw [exec_segSet s d _ h, unpack_pack]
    exact congrArg (fun u : State => Host.Outcome.next (u.ret .none)) (writeSegs_self s ⟨d, h⟩)

end Sys2Proof.Machine

/-! ### `BTN.CHANGED` and `BTN.POLL` (R93 to R99) -/

namespace Sys2Proof.Machine

/-- `BTN.CHANGED` on a detector that has taken a sample, with its latches written out. -/
theorem exec_btnChanged_of_cur (s : State) {b : Nat} (h : b < nbtn) {c : Level} (hc : (s.btns[b]).cur = some c) :
    exec (.btnChanged b) s = .next { s with
      btns := s.btns.set b ⟨some c, some c⟩
      result := .changed (s.btns[b]).changed } := by
  have hconsume : (s.btns[b]).consume = ⟨some c, some c⟩ := by rw [EdgeDetector.consume, hc]
  rw [exec_btnChanged_sampled s b h c hc, hconsume]
  rfl

theorem changed_of_prev_none {e : EdgeDetector} (h : e.prev = none) : e.changed = false := by
  rw [EdgeDetector.changed, h]

theorem changed_of_samples {e : EdgeDetector} {p c : Level} (hp : e.prev = some p) (hc : e.cur = some c) :
    e.changed = xor p c := by
  obtain ⟨prev, cur⟩ := e
  cases hp
  cases hc
  cases p <;> cases c <;> rfl

/-- Two equal latches are no change (R95). -/
theorem changed_of_prev_eq_cur {e : EdgeDetector} {c : Level} (hp : e.prev = some c) (hc : e.cur = some c) :
    e.changed = false :=
  (changed_of_samples hp hc).trans (Bool.xor_self c)

/-- Settles O30: each row of R93's table is a case of `changed`. -/
theorem btnChangedComparesAndConsumes : Obligations.BtnChangedComparesAndConsumes := by
  intro s b
  refine ⟨fun h => ⟨exec_btnChanged_unsampled s b h, fun c hp hc => ?_, fun p c hp hc => ?_⟩,
    fun h => (exec_button_refused s b released h).right⟩
  · rw [exec_btnChanged_of_cur s h hc, changed_of_prev_none hp]
  · rw [exec_btnChanged_of_cur s h hc, changed_of_samples hp hc]

/-- `BTN.CHANGED` on two equal latches writes only the value returned. -/
theorem exec_btnChanged_of_equal (s : State) {b : Nat} (h : b < nbtn) {c : Level}
    (hb : s.btns[b] = ⟨some c, some c⟩) :
    exec (.btnChanged b) s = .next { s with result := .changed false } := by
  have hc : (s.btns[b]).cur = some c := congrArg EdgeDetector.cur hb
  have hp : (s.btns[b]).prev = some c := congrArg EdgeDetector.prev hb
  rw [exec_btnChanged_of_cur s h hc, changed_of_prev_eq_cur hp hc, ← hb, Vector.set_getElem_self]

/-- Settles O31: the first call leaves two equal latches. -/
theorem secondChangedIsFalse : Obligations.SecondChangedIsFalse := by
  intro s t b h
  cases exec_next h with
  | btnChanged _ c hb hc =>
    have hconsume : (s.btns[b]).consume = ⟨some c, some c⟩ := by rw [EdgeDetector.consume, hc]
    exact exec_btnChanged_of_equal _ hb
      (((vector_set_get s.btns ⟨b, hb⟩ ⟨b, hb⟩ _).trans (if_pos rfl)).trans hconsume)

theorem btnSample_btns_same (s : State) (b : Fin nbtn) (l : Level) :
    (s.btnSample b l).btns[b] = (s.btns[b]).sample l :=
  (vector_set_get s.btns b b _).trans (if_pos rfl)

/-- `BTN.CHANGED` right after a `BTN.SAMPLE` of `level` (R97). -/
theorem exec_btnChanged_after_sample (s : State) {b : Nat} (h : b < nbtn) (level : Level) (r : Result) :
    exec (.btnChanged b) ((s.btnSample ⟨b, h⟩ level).ret r) =
      .next { s with
        btns := (s.btnSample ⟨b, h⟩ level).btns.set b ⟨some level, some level⟩
        result := .changed ((s.btns[b]).sample level).changed } := by
  have hb : (s.btnSample ⟨b, h⟩ level).btns[b] = (s.btns[b]).sample level := btnSample_btns_same s ⟨b, h⟩ level
  have hc : (((s.btnSample ⟨b, h⟩ level).ret r).btns[b]).cur = some level :=
    congrArg EdgeDetector.cur hb
  rw [exec_btnChanged_of_cur _ h hc, State.ret_btns, hb]
  rfl

theorem poll_falling_iff (e : EdgeDetector) (level : Level) :
    pollResult (e.sample level).changed level = some .falling ↔ e.cur = some released ∧ level = pressed := by
  rw [changed_sample]
  generalize e.cur = cur
  revert cur level
  decide

theorem poll_rising_iff (e : EdgeDetector) (level : Level) :
    pollResult (e.sample level).changed level = some .rising ↔ e.cur = some pressed ∧ level = released := by
  rw [changed_sample]
  generalize e.cur = cur
  revert cur level
  decide

/-- Settles O32: the change is that of the sampled detector, and a tick leaves the same two latches. -/
theorem pollReportsTheEdge : Obligations.PollReportsTheEdge := by
  intro s b h level
  refine ⟨_, _, _, exec_btnSample s b level h, exec_btnChanged_after_sample s h level _, rfl,
    Vector.getElem_set_self h, poll_falling_iff _ _, poll_rising_iff _ _, ?_⟩
  rintro lvl v rfl hv
  rw [exec_tick_eq] at hv
  cases hv
  exact (afterTick_latches lvl s ⟨b, h⟩).trans (Vector.getElem_set_self h).symm

/-- Settles O33: the second sample moves the first into `prev`, so the two latches are equal. -/
theorem secondSampleLosesTheEdge : Obligations.SecondSampleLosesTheEdge := by
  intro s b level h
  have hequal : ((((s.btnSample ⟨b, h⟩ level).ret (.level level)).btnSample ⟨b, h⟩ level).ret
      (.level level)).btns[b] = ⟨some level, some level⟩ :=
    (btnSample_btns_same _ ⟨b, h⟩ level).trans
      (congrArg (EdgeDetector.sample · level) (btnSample_btns_same s ⟨b, h⟩ level))
  exact ⟨_, _, _, exec_btnSample s b level h, exec_btnSample _ b level h, exec_btnChanged_of_equal _ h hequal, rfl⟩

end Sys2Proof.Machine

/-! ### The event rows, `NOP` and `CMD` (R104 to R111) -/

namespace Sys2Proof.Machine

/-- The row of a command, with the events of the word that it drops (R53, R54). -/
def commandRow (e : EvtWord) : Command → Instr
  | .inc => .evtInc (e.getLsbD 1) (e.getLsbD 2)
  | .dec => .evtDec (e.getLsbD 2)
  | .rst => .evtRst
  | .nop => .evtNop

theorem decodeEvt_eq_commandRow (e : EvtWord) : decodeEvt e = commandRow e (decodeCommand e) := rfl

/-- An event word that matches a row of R53 decodes to the row of its command. -/
theorem decode_evt_of_row {e : EvtWord} {r : EvtRow} (hr : r ∈ evtRows) (h : e &&& r.mask = r.bits) :
    decode (.evt e) = .ok (commandRow e r.command) := by
  rw [decode, decodeEvt_eq_commandRow, (evtRow_matches_iff e r hr).mp h]

theorem value_up (s : State) : counterValue (addCounter 1 s.digits).toList = (s.value + 1) % 100 := by
  have h := value_cntAdd s (a := 1) (by decide) (by decide)
  rw [State.value, State.cntAdd_digits] at h
  omega

theorem value_down (s : State) : counterValue (addCounter (-1) s.digits).toList = (s.value + 99) % 100 := by
  have h := value_cntAdd s (a := -1) (by decide) (by decide)
  rw [State.value, State.cntAdd_digits] at h
  omega

/-- Settles O34: phase 4 of `INC` is `CNT.ADD 1` and the flag. -/
theorem evtIncCountsUp : Obligations.EvtIncCountsUp :=
  ⟨fun s _ _ => ⟨addCounter 1 s.digits, rfl, rfl, value_up s⟩, fun _ =>
    decode_evt_of_row (r := ⟨"EVT.INC", .inc, 0b001#3, 0b001#3⟩) (by decide)⟩

/-- Settles O35: phase 4 of `DEC` is `CNT.ADD -1` and the flag. -/
theorem evtDecCountsDown : Obligations.EvtDecCountsDown :=
  ⟨fun s _ => ⟨addCounter (-1) s.digits, rfl, rfl, value_down s⟩, fun _ =>
    decode_evt_of_row (r := ⟨"EVT.DEC", .dec, 0b010#3, 0b011#3⟩) (by decide)⟩

/-- Settles O36: phase 4 of `RST` is `CNT.RST` and the flag. -/
theorem evtRstClearsTheCounter : Obligations.EvtRstClearsTheCounter :=
  ⟨fun _ => ⟨Vector.replicate ndigits 0, rfl, fun d => Vector.getElem_replicate d.isLt⟩, fun _ =>
    decode_evt_of_row (r := ⟨"EVT.RST", .rst, 0b100#3, 0b111#3⟩) (by decide)⟩

/-- Settles O37: phase 4 of `NOP` is nothing. -/
theorem evtNopWritesNothing : Obligations.EvtNopWritesNothing :=
  ⟨fun _ => rfl, fun _ =>
    decode_evt_of_row (r := ⟨"EVT.NOP", .nop, 0b000#3, 0b111#3⟩) (by decide)⟩

/-- Settles O38: `exec`'s arm, and the all-zero row. -/
theorem nopWritesNothing : Obligations.NopWritesNothing := ⟨fun _ => rfl, rfl⟩

/-- Settles O39: phases 4 and 5 field by field; the row of the event word is phase 4 alone. -/
theorem cmdExecutesThenRenders : Obligations.CmdExecutesThenRenders := by
  intro s evt
  obtain ⟨hissued, hdraws⟩ := apply_inputs s (decodeCommand evt)
  refine ⟨_, _, exec_cmd s evt, exec_decodeEvt s evt, apply_digits s _, apply_dirty s _, apply_result s _,
    fun hdue => apply_shows_of_due ?_, fun hclean hnop => ?_, apply_btns s _, hissued, hdraws⟩
  · simpa using hdue
  · rw [hnop, apply_nop_of_clean hclean]

end Sys2Proof.Machine

/-! ### Ticks (R100 to R103, R132, R139, R142) -/

namespace Sys2Proof.Machine

/-- Settles O40: the latches of the statement are those of the tick, and its word is that of the press edges. -/
theorem tickIsCmdOfThePressEdges : Obligations.TickIsCmdOfThePressEdges := by
  intro s lvl
  refine ⟨⟨_, exec_tick_eq lvl s, afterTick_latches lvl s⟩, fun btns hbtns => ?_⟩
  rw [eq_latchesAt_of_get hbtns, exec_tick_eq, exec_cmd]
  rfl

/-- Settles O41: the command of a tick is the priority decode of its press edges. -/
theorem tickCommandIsTheFirstPressEdge : Obligations.TickCommandIsTheFirstPressEdge := by
  intro s lvl
  refine ⟨_, tickCommand s lvl, _, exec_tick_eq lvl s, afterTick_result lvl s, ?_⟩
  have hall : (∀ b : Fin nbtn, pressEdge s lvl b = false) ↔ pressEdge s lvl 0 = false ∧
      pressEdge s lvl 1 = false ∧ pressEdge s lvl 2 = false :=
    ⟨fun h => ⟨h 0, h 1, h 2⟩, fun ⟨h0, h1, h2⟩ b => by fin_cases b; exacts [h0, h1, h2]⟩
  rw [hall, tickCommand, decodeCommand_eventWord]
  generalize pressEdge s lvl 0 = inc, pressEdge s lvl 1 = dec, pressEdge s lvl 2 = rst
  revert inc dec rst
  decide

theorem tickCommand_of_no_edge {s : State} {lvl : LvlWord} (h : ∀ b, pressEdge s lvl b = false) :
    tickCommand s lvl = .nop := by
  rw [tickCommand, h, h, h]
  rfl

/-- A button whose newest sample is the level presented has no press edge. -/
theorem pressEdge_of_held {s : State} {lvl : LvlWord} {b : Fin nbtn}
    (h : (s.btns[b]).cur = some (levelOf lvl b)) : pressEdge s lvl b = false := by
  rw [pressEdge, h]
  cases levelOf lvl b <;> rfl

/-- A button presented as released has no press edge. -/
theorem pressEdge_of_released (s : State) {lvl : LvlWord} {b : Fin nbtn} (h : levelOf lvl b = released) :
    pressEdge s lvl b = false := by
  rw [pressEdge, h]
  exact Bool.and_false _

/-- A button last sampled released and presented as pressed has one (R102). -/
theorem pressEdge_of_press {s : State} {lvl : LvlWord} {b : Fin nbtn} (hcur : (s.btns[b]).cur = some released)
    (h : levelOf lvl b = pressed) : pressEdge s lvl b = true := by
  rw [pressEdge, hcur, h]
  rfl

/-- A first sample is no press edge (D4). -/
theorem pressEdge_of_unsampled {s : State} (lvl : LvlWord) {b : Fin nbtn} (h : (s.btns[b]).cur = none) :
    pressEdge s lvl b = false := by
  rw [pressEdge, h]
  rfl

/-- A tick without a press edge and with no render due writes the latches and the returned value only. -/
theorem afterTick_of_clean {s : State} {lvl : LvlWord} (hedge : ∀ b, pressEdge s lvl b = false)
    (hclean : s.dirty = false) :
    afterTick lvl s = { s with btns := latchesAt lvl, result := .executed .nop false } := by
  rw [afterTick, tickCommand_of_no_edge hedge]
  exact apply_nop_of_clean hclean

/-- Settles O42: after a tick every button is held and no render is due. -/
theorem repeatedTickDoesNothing : Obligations.RepeatedTickDoesNothing := by
  intro s lvl
  refine ⟨afterTick lvl s, exec_tick_eq lvl s, ?_⟩
  have hedge : ∀ b, pressEdge (afterTick lvl s) lvl b = false := fun b =>
    pressEdge_of_held (congrArg EdgeDetector.cur (afterTick_latches lvl s b))
  rw [exec_tick_eq, afterTick_of_clean hedge (afterTick_dirty lvl s), ← afterTick_btns lvl s]

theorem afterTick_of_unsampled {s : State} (lvl : LvlWord) (hcur : ∀ b : Fin nbtn, (s.btns[b]).cur = none)
    (hdue : s.dirty = true) :
    (afterTick lvl s).result = .executed .nop true ∧ (afterTick lvl s).digits = s.digits := by
  have hnop := tickCommand_of_no_edge fun b => pressEdge_of_unsampled lvl (hcur b)
  rw [afterTick_result, afterTick_digits, hnop, hdue]
  exact ⟨rfl, rfl⟩

theorem reset_digit_pattern (d : Fin ndigits) : config.segTable[State.reset.digits[d]] = 0x3f#7 := by
  revert d
  decide

/-- Settles O43: without samples there is no press edge, and the render due shows the digits. -/
theorem firstTickRendersOnly : Obligations.FirstTickRendersOnly := by
  refine ⟨fun s lvl hcur hdue => ⟨_, exec_tick_eq lvl s, ?_⟩,
    fun lvl => ⟨_, exec_tick_eq lvl State.reset, fun d => ?_⟩⟩
  · obtain ⟨hresult, hdigits⟩ := afterTick_of_unsampled lvl hcur hdue
    exact ⟨hresult, hdigits, afterTick_settled lvl s (.inl hdue)⟩
  · obtain ⟨-, hdigits⟩ := afterTick_of_unsampled (s := State.reset) lvl (by decide) rfl
    obtain ⟨-, -, hshows⟩ := afterTick_settled lvl State.reset (.inl rfl)
    rw [hshows d]
    simp only [hdigits]
    exact reset_digit_pattern d

/-- `INC` moves the value up by one, modulo 100. -/
theorem value_execute_inc (s : State) : (s.execute .inc).value = (s.value + 1) % 100 := value_up s

theorem value_execute_dec (s : State) : (s.execute .dec).value = (s.value + 99) % 100 := value_down s

theorem afterTick_value (lvl : LvlWord) (s : State) :
    (afterTick lvl s).value = (s.execute (tickCommand s lvl)).value :=
  congrArg (fun ds : Vector Digit ndigits => counterValue ds.toList) (afterTick_digits lvl s)

/-- All buttons released. -/
theorem afterTick_released_value (s : State) : (afterTick 0b111#3 s).value = s.value := by
  have hreleased : ∀ b : Fin nbtn, levelOf 0b111#3 b = released := by decide
  rw [afterTick_value, tickCommand_of_no_edge fun b => pressEdge_of_released s (hreleased b)]
  rfl

theorem afterTick_released_cur (s : State) (b : Fin nbtn) : ((afterTick 0b111#3 s).btns[b]).cur = some released := by
  rw [afterTick_btns]
  revert b
  decide

/-- Increment pressed alone after a release. -/
theorem tickCommand_press_inc {s : State} (h : (s.btns[0]).cur = some released) : tickCommand s 0b110#3 = .inc := by
  rw [tickCommand, decodeCommand_eventWord, pressEdge_of_press (b := 0) h rfl]
  rfl

/-- Decrement pressed alone after a release. -/
theorem tickCommand_press_dec {s : State} (h : (s.btns[1]).cur = some released) : tickCommand s 0b101#3 = .dec := by
  rw [tickCommand, decodeCommand_eventWord, pressEdge_of_released s (b := 0) rfl, pressEdge_of_press (b := 1) h rfl]
  rfl

theorem afterTick_press_inc_value {s : State} (h : (s.btns[0]).cur = some released) :
    (afterTick 0b110#3 s).value = (s.value + 1) % 100 := by
  rw [afterTick_value, tickCommand_press_inc h, value_execute_inc]

theorem afterTick_press_dec_value {s : State} (h : (s.btns[1]).cur = some released) :
    (afterTick 0b101#3 s).value = (s.value + 99) % 100 := by
  rw [afterTick_value, tickCommand_press_dec h, value_execute_dec]

/-- Settles O44: the release between the two presses makes the second one an edge again. -/
theorem bounceCountsTwice : Obligations.BounceCountsTwice := by
  refine ⟨fun s h => ⟨_, _, _, exec_tick_eq _ s, exec_tick_eq _ _, exec_tick_eq _ _, ?_⟩,
    fun s h => ⟨_, _, _, exec_tick_eq _ s, exec_tick_eq _ _, exec_tick_eq _ _, ?_⟩⟩
  · rw [afterTick_press_inc_value (afterTick_released_cur _ 0), afterTick_released_value,
      afterTick_press_inc_value h]
    omega
  · rw [afterTick_press_dec_value (afterTick_released_cur _ 1), afterTick_released_value,
      afterTick_press_dec_value h]
    omega

end Sys2Proof.Machine

/-! ### The words of digits, segments and pseudo-operations (R47, R49, R65) -/

namespace Sys2Proof

/-- Settles O1: each word is decoded by evaluation. -/
theorem writtenWordsDecode : Obligations.WrittenWordsDecode := by
  unfold Obligations.WrittenWordsDecode
  decide

theorem toNat_encodeDigit (d : Digit) : (encodeDigit d).toNat = d.val := by
  rw [encodeDigit, BitVec.toNat_ofNat]
  omega

theorem decodeDigit_encodeDigit (d : Digit) : decodeDigit (encodeDigit d) = .ok d := by
  have hd : (encodeDigit d).toNat < radix := (toNat_encodeDigit d).symm ▸ d.isLt
  rw [decodeDigit, dif_pos hd]
  exact congrArg Except.ok (Fin.ext (toNat_encodeDigit d))

/-- Settles O6: a nibble is a digit iff its value is below the radix. -/
theorem digitNibbleRoundTrip : Obligations.DigitNibbleRoundTrip :=
  ⟨fun d => ⟨decodeDigit_encodeDigit d, toNat_encodeDigit d⟩, fun _ h => dif_neg (Nat.not_lt.mpr h)⟩

/-- Settles O7: the table is `Config.standardTable`, compared entry by entry. -/
theorem segmentTableIsTheStandardOne : Obligations.SegmentTableIsTheStandardOne := ⟨rfl, by decide⟩

/-- Settles O8: each expansion, encoded, is the concatenation of its row's fields. -/
theorem pseudoOperationsExpand : Obligations.PseudoOperationsExpand :=
  ⟨rfl, rfl, rfl, fun _ => ⟨rfl, rfl, rfl⟩, fun _ _ => rfl⟩

end Sys2Proof

/-! ### Reset and the step (R30, R43, R62, R116) -/

namespace Sys2Proof.Machine

theorem reset_btns_get (b : Fin nbtn) : State.reset.btns[b] = EdgeDetector.initial :=
  Vector.getElem_replicate b.isLt

/-- Settles O10: every register at its reset value. -/
theorem resetValues : Obligations.ResetValues :=
  ⟨rfl, by decide, fun b => by rw [reset_btns_get]; exact ⟨rfl, rfl⟩, rfl, by decide⟩

/-- Settles O53: no button has a sample, no word is issued, and the flag is set. -/
theorem resetMeetsTheInvariants : Obligations.ResetMeetsTheInvariants :=
  ⟨fun b _ => by rw [reset_btns_get], fun _ hw => absurd hw List.not_mem_nil, .inl rfl⟩

/-- An event word's step: the row as phase 4, then phase 5. -/
theorem step_evt_finish {s : State} {e : EvtWord} {rest : List OpWord} (hs : s.issued = .evt e :: rest) :
    ∃ t, exec (decodeEvt e) { s with issued := rest } = .next t ∧
      step s = .next (t.finish (decodeCommand e)) := by
  refine ⟨_, exec_decodeEvt _ e, ?_⟩
  rw [step_evt s e rest hs, exec_cmd, finish_ret]
  rfl

/-- Settles O11: `step`'s three heads of the queue. -/
theorem stepExecutesTheIssuedWord : Obligations.StepExecutesTheIssuedWord := by
  intro s w rest hs
  refine ⟨?_, ?_, fun e => step_illegal s w rest e hs⟩
  · rintro u i rfl hd
    exact step_uop s u rest i hs hd
  · rintro e rfl
    obtain ⟨t, hexec, hstep⟩ := step_evt_finish hs
    exact ⟨t, hexec, hstep, step_evt s e rest hs⟩

theorem decode_of_decodeTableWord {nbits w : Nat} {i : Instr} (h : decodeTableWord nbits w = some i) :
    decode (OpWord.ofTable nbits w) = .ok i := by
  unfold decodeTableWord at h
  split at h <;> cases h
  assumption

/-- Settles O12: the word placed is the head of the queue, and taking it off leaves the state. -/
theorem stepRunsTheFetchedWord : Obligations.StepRunsTheFetchedWord := by
  intro s nbits w
  refine ⟨fun u i hw hdec => ?_, fun e hw => ⟨?_, ?_⟩⟩
  · have hd := decode_of_decodeTableWord hdec
    rw [hw] at hd
    exact step_uop _ u s.issued i (by rw [State.withFetchWord_issued, hw]) hd
  · rw [decodeTableWord, hw]
    rfl
  · exact step_evt_finish (s := s.withFetchWord nbits w) (rest := s.issued) (by rw [State.withFetchWord_issued, hw])

/-- Settles O13: the environment answers with levels or its read has failed. -/
theorem stepPollsWhenNothingIsIssued : Obligations.StepPollsWhenNothingIsIssued := by
  intro s hs
  cases he : Config.environment s.draws with
  | some lvl => exact .inl ⟨lvl, rfl, step_poll s lvl hs he⟩
  | none => exact .inr ⟨rfl, run_stuck s hs he⟩

/-- Settles O23: element `d` of the vector returned is the pattern of digit `d`. -/
theorem cntRenderReadsEveryDigit : Obligations.CntRenderReadsEveryDigit := by
  refine fun s => ⟨s.cntRender, rfl, fun d => ?_⟩
  rw [State.cntRender, arrange_eq]
  exact Vector.getElem_ofFn d.isLt

end Sys2Proof.Machine
